-- ==== Sys2Proof/Word.lean ====
section
/-! DEFINITION. Word.lean: the values the block moves: port words, symbols, bit strings. -/

namespace Sys2Proof

/-- A register value: one whole 32-bit word of the host port, bit 0 least significant (R6, R60). -/
abbrev Word := BitVec 32

/-- A symbol, carried zero-extended in a port word (R9, R28, R172: "zext_32(SRC[x[A0]])").
That its value is below `NSYM` is an invariant (`State.Inv`), not part of the type. -/
abbrev Symbol := Word

/-- A bit string `b[0], b[1], …` with index 0 first; `true` is the bit 1 (R6).
For a code, index 0 is the bit nearest the trie root. -/
abbrev Code := List Bool

end Sys2Proof
end

