-- ==== Sys2Proof/Config.lean ====
section
/-! DEFINITION. Config.lean: the six size parameters the spec leaves open (R4, D7) and the two derived from them. -/

namespace Sys2Proof

/-- The six implementation parameters of R4.
They are arguments of the model: State carries one value of this type, which no step changes (R34). -/
structure Config where
  /-- SYM_W: width of a symbol in bits. -/
  symW : Nat
  /-- MAXLEN: largest code length in bits. -/
  maxlen : Nat
  /-- BB_CAP: largest BitBuffer length in bits. -/
  bbCap : Nat
  /-- SRC_CAP: capacity of the source symbol memory, in symbols. -/
  srcCap : Nat
  /-- DST_CAP: capacity of the destination symbol memory, in symbols. -/
  dstCap : Nat
  /-- NODE_CAP: capacity of the trie node store, in nodes, the root included. -/
  nodeCap : Nat
  deriving DecidableEq, Repr

/-- NSYM = 2^SYM_W, the number of symbol values (R4). -/
def Config.nsym (cfg : Config) : Nat := 2 ^ cfg.symW

/-- CW = ceil(MAXLEN / 32), the number of code operand registers (R4). -/
def Config.cw (cfg : Config) : Nat := (cfg.maxlen + 31) / 32

/-- The reference configuration of R4, the one every vector of the spec uses. -/
def Config.reference : Config :=
  ⟨8, 255, 65536, 4096, 4096, 511⟩

/-- What the `ID` register reads: "HBC1" (R33). -/
def idWord : Word := 0x48424331

end Sys2Proof
end

