-- ==== Sys2Proof/Syntax.lean ====
section
/-! DEFINITION. Syntax.lean: the 21 commands (R92), the host-port registers (R21), the port's transactions (R60),
and the assembler's statements and pseudo-instructions (R100, R101). -/

namespace Sys2Proof

/-- The 21 commands of R92, one constructor per row of the opcode table.
A command word has no operand field: every operand comes from the operand registers (R90, R93). -/
inductive Instr where
  | nop
  | reset
  | ctwrite
  | ctread
  | bbcreate
  | bbget
  | bbset
  | bbclear
  | bbrdbyte
  | bbwrbyte
  | srcclear
  | srcpush
  | srcterm
  | srcread
  | dstread
  | encsize
  | encode
  | trieclear
  | trieadd
  | triebuild
  | decode
  deriving DecidableEq, Repr

/-- The host-port registers of R21, by name; `c k` is `C[k]`. -/
inductive Reg where
  | id
  | cmd
  | status
  | cause
  | info
  | result
  | a0
  | a1
  | term
  | bblen
  | srclen
  | dstlen
  | nodes
  | pSymw
  | pMaxlen
  | pBbcap
  | pSrccap
  | pDstcap
  | pNodecap
  | c (k : Nat)
  deriving DecidableEq, Repr

/-- What can reach the block from outside: the two transactions of the host port (R60) and the hardware reset input (R300). -/
inductive Transaction where
  | hostRead (index : BitVec 10)
  | hostWrite (index : BitVec 10) (word : Word)
  | hardReset
  deriving DecidableEq, Repr

/-- A statement of the assembler syntax of R100: a port primitive (`W`, `R`) or a command with its operands.
The five command shapes are the five rows of R100's expansion table (the row of one operand serves its two lines).
An operand is an integer, because a negative buffer length may be written. -/
inductive Statement where
  | write (reg : Reg) (value : Word)
  | read (reg : Reg)
  | bare (i : Instr)
  | withA0 (i : Instr) (operand : Int)
  | withByte (index : Word) (value : Word)
  | withCode (i : Instr) (s : Symbol) (bits : Code)
  deriving DecidableEq, Repr

/-- The pseudo-instructions of R101, host-side macros over statements.
`TOBITSTRING` and `READOUT` have no operand: how many elements they read is what their own first read returns. -/
inductive Pseudo where
  | loadTable (entries : List (Symbol × Code))
  | loadStream (symbols : List Symbol)
  | loadBits (bits : Code)
  | toBitString
  | readOut
  | codecEncode
  | codecDecode
  | check
  deriving DecidableEq, Repr

/-- What a macro gives the host that issues it (R101): TOBITSTRING a string of '0' and '1', READOUT the decoded symbols,
CHECK the words of the report, the others nothing but the state they leave. -/
inductive MacroResult where
  | nothing
  | bitString (string : List Char)
  | symbols (stream : List Symbol)
  | report (words : List Word)
  deriving DecidableEq, Repr

end Sys2Proof
end

