-- ==== Sys2Proof/WellFormed.lean ====
section
/-! DEFINITION. WellFormed.lean: which configurations (R4, R5), commands, registers and assembler statements are well formed. -/

namespace Sys2Proof

/-- The constraints of R4.
"A configuration that breaks a constraint of rule R4 is not a configuration of this hardware" (R5). -/
abbrev Config.Valid (cfg : Config) : Prop :=
  (1 ≤ cfg.symW ∧ cfg.symW ≤ 16) ∧
  (1 ≤ cfg.maxlen ∧ cfg.maxlen ≤ 1024) ∧
  cfg.bbCap < 2 ^ 31 ∧
  (cfg.srcCap < 2 ^ 31 ∧ cfg.srcCap * cfg.maxlen < 2 ^ 32) ∧
  cfg.dstCap < 2 ^ 31 ∧
  (1 ≤ cfg.nodeCap ∧ cfg.nodeCap < 2 ^ 31)

/-- A command carries no register number, no immediate and no mode bit (R90), so no constructor of `Instr` can be ill formed. -/
abbrev Instr.WellFormed (_ : Instr) : Prop := True

/-- Which register names exist in a configuration: `C[k]` only for `k < CW` (R21). -/
def Reg.wellFormed (cfg : Config) : Reg → Bool
  | .c k => decide (k < cfg.cw)
  | .id | .cmd | .status | .cause | .info | .result | .a0 | .a1 | .term
  | .bblen | .srclen | .dstlen | .nodes
  | .pSymw | .pMaxlen | .pBbcap | .pSrccap | .pDstcap | .pNodecap => true

/-- The commands R100 writes with no operand. -/
def bareCommands : List Instr :=
  [.nop, .reset, .srcclear, .srcterm, .encsize, .encode, .trieclear, .triebuild, .decode]

/-- The commands R100 writes with one operand, which goes to `A0`. -/
def a0Commands : List Instr :=
  [.ctread, .srcpush, .bbcreate, .bbget, .bbset, .bbclear, .bbrdbyte, .srcread, .dstread]

/-- The commands R100 writes with a symbol and a quoted bit string. -/
def codeCommands : List Instr := [.ctwrite, .trieadd]

/-- Which statements R100 admits: a command in the shape its row gives it, a value that fits 32 bits
(a negative one only for BBCREATE), a bit string the `C` registers can carry. -/
def Statement.wellFormed (cfg : Config) : Statement → Bool
  | .write reg _ => reg.wellFormed cfg
  | .read reg => reg.wellFormed cfg
  | .bare i => bareCommands.contains i
  | .withA0 i n =>
    a0Commands.contains i && decide (n < 2 ^ 32) &&
      (decide (0 ≤ n) || (i == .bbcreate && decide (-(2 ^ 31) ≤ n)))
  | .withByte _ _ => true
  | .withCode i _ bits => codeCommands.contains i && decide (bits.length ≤ cfg.maxlen)

end Sys2Proof
end

