-- ==== Sys2Proof/Decode.lean ====
section
/-! DEFINITION. Decode.lean: the command word (format K, R90), its decoder (R91, R92) and, after it, the encoder. -/

namespace Sys2Proof

/-- Why a command word is illegal (R91, R94): a one bit in the reserved field, or an opcode that names no command. -/
inductive IllegalWord where
  | reservedBits
  | unassignedOpcode
  deriving DecidableEq, Repr

/-- Field `op`, bits 7:0 of a command word (R90). -/
def fieldOp (w : Word) : BitVec 8 := w.extractLsb' 0 8

/-- Field `rsv`, bits 31:8 of a command word (R90). -/
def fieldRsv (w : Word) : BitVec 24 := w.extractLsb' 8 24

/-- The opcode map, column `op` of R92 beside the command each row names. -/
def opcodeMap : List (BitVec 8 × Instr) :=
  [(0x00, .nop), (0x01, .reset),
   (0x08, .ctwrite), (0x09, .ctread),
   (0x10, .bbcreate), (0x11, .bbget), (0x12, .bbset), (0x13, .bbclear), (0x14, .bbrdbyte), (0x15, .bbwrbyte),
   (0x20, .srcclear), (0x21, .srcpush), (0x22, .srcterm), (0x23, .srcread), (0x28, .dstread),
   (0x30, .encsize), (0x31, .encode),
   (0x40, .trieclear), (0x41, .trieadd), (0x42, .triebuild), (0x43, .decode)]

/-- The command an opcode names, if any (R92). -/
def instrOfOpcode (op : BitVec 8) : Option Instr :=
  (opcodeMap.find? (fun row => row.1 == op)).map (·.2)

/-- The decoder of R91, total on every 32-bit word.
The port carries whole words and defines no byte order (R61), so the decoder reads a word, not bytes. -/
def decodeWord (w : Word) : Except IllegalWord Instr :=
  if fieldRsv w ≠ 0 then .error .reservedBits
  else match instrOfOpcode (fieldOp w) with
    | some i => .ok i
    | none => .error .unassignedOpcode

/-- The word of an instruction given as in `spec/opcode_table.json`: `nbits` bits, every bit above them 0.
A command is one 32-bit word (R90): a value that does not fit one is no command. -/
def decodeTableWord (nbits w : Nat) : Option Instr :=
  if w % 2 ^ nbits < 2 ^ 32 then (decodeWord (BitVec.ofNat 32 (w % 2 ^ nbits))).toOption else none

/-- The opcode of each command (R92). -/
def opcode : Instr → BitVec 8
  | .nop => 0x00
  | .reset => 0x01
  | .ctwrite => 0x08
  | .ctread => 0x09
  | .bbcreate => 0x10
  | .bbget => 0x11
  | .bbset => 0x12
  | .bbclear => 0x13
  | .bbrdbyte => 0x14
  | .bbwrbyte => 0x15
  | .srcclear => 0x20
  | .srcpush => 0x21
  | .srcterm => 0x22
  | .srcread => 0x23
  | .dstread => 0x28
  | .encsize => 0x30
  | .encode => 0x31
  | .trieclear => 0x40
  | .trieadd => 0x41
  | .triebuild => 0x42
  | .decode => 0x43

/-- The command word of a command: reserved field 0 above the opcode (R90). -/
def encode (i : Instr) : Word := (0 : BitVec 24) ++ opcode i

end Sys2Proof
end

