-- ==== Sys2Proof/Machine/State.lean ====
section
/-! DEFINITION. Machine/State.lean: the state of one HBC instance (R20) as plain data, the causes a command can raise
(R261, R262), the model's own fault and refusal types, and the state after reset (R48). -/

namespace Sys2Proof.Machine

/-- The named causes of R261, with the reserved EmptyStreamError that the block itself never raises (R274). -/
inductive Cause where
  | emptyStreamError
  | invalidLengthError
  | indexOutOfRangeError
  | unknownSymbolError
  | conflictingCodeError
  | malformedStreamError
  | illegalCommand
  | capacityError
  | missingChild
  | badOperand
  deriving DecidableEq, Repr

/-- The finite memories a CapacityError can name (R262). -/
inductive Store where
  | bb
  | src
  | dst
  | trie
  deriving DecidableEq, Repr

/-- The operand registers a BadOperand can name (R262). -/
inductive OperandReg where
  | a0
  | a1
  | c
  deriving DecidableEq, Repr

/-- What a command's `raise` carries: a cause of R261 with the detail R262 gives it.
There is no constructor for EmptyStreamError: no command raises it (R274). -/
inductive Raised where
  | invalidLength (operand : Word)
  | indexOutOfRange (operand : Word)
  | unknownSymbol (i : Nat)
  | conflictingCode (s : Symbol)
  | malformedStream (start : Nat)
  | illegalCommand (w : Word)
  | capacity (m : Store)
  | missingChild (rp : Nat)
  | badOperand (o : OperandReg)
  deriving DecidableEq, Repr

/-- One trie node (R45): its two children by bit value, each absent or a node index, and the symbol it stores if it is a leaf. -/
structure Node where
  child0 : Option Nat
  child1 : Option Nat
  leaf : Option Symbol
  deriving DecidableEq, Repr

/-- The trie node store: node 0 is the root; a new node takes the next index (R45). -/
abbrev Trie := List Node

/-- The code table (R41), sparse: symbol value and code, symbols strictly rising, no empty code.
A symbol that is not listed has the empty bit string, that is, no entry. -/
abbrev CodeTable := List (Nat × Code)

/-- The whole state of one HBC instance (R20), and the model's two own fields for the port (`port`, `replies`).
`BBLEN`, `SRCLEN`, `DSTLEN` and `NODES` are the lengths of the memories they count, held once (R42 to R45);
`ID` and `CMD` store nothing (R33, R35). -/
structure State where
  /-- The six parameters, which the `P_*` registers read (R34); never written. -/
  cfg : Config
  /-- `A0`, the first operand register (R22). -/
  a0 : Word
  /-- `A1`, the second operand register (R23). -/
  a1 : Word
  /-- `C[0] .. C[CW-1]`, the code operand registers (R27). -/
  c : List Word
  /-- `TERM`, the terminator symbol, zero-extended (R28). -/
  term : Word
  /-- `RESULT` (R24). -/
  result : Word
  /-- `CAUSE`, five bits (R26). -/
  cause : BitVec 5
  /-- `INFO` (R26). -/
  info : Word
  /-- `STATUS.ERR` (R25). -/
  err : Bool
  /-- `CT`, the code table (R41). -/
  ct : CodeTable
  /-- `BB`, the BitBuffer: exactly `BBLEN` bits, position 0 first (R42). -/
  bb : List Bool
  /-- `SRC`, the source symbol memory: exactly `SRCLEN` symbols (R43). -/
  src : List Symbol
  /-- `DST`, the destination symbol memory: exactly `DSTLEN` symbols, in emission order (R44). -/
  dst : List Symbol
  /-- `TRIE`, exactly `NODES` nodes (R45). -/
  trie : Trie
  /-- The model's own: what the host and the integrator will do to the block, first to happen first (R49: "the sequence of host accesses"). -/
  port : List Transaction
  /-- The model's own: the words `HostRead` has returned, the latest first. -/
  replies : List Word
  deriving DecidableEq, Repr

/-- How a step can stop with a fault: it cannot.
"Nothing in the block is stuck: every command in every state has exactly one outcome" (93, section 1; R312); the spec's own
faults are reports in registers after which the machine goes on (R260). -/
inductive Fault where
  deriving DecidableEq, Repr

/-- Why a step can be refused. -/
inductive Refusal where
  /-- Raised by `exec` for an instruction that has no meaning yet; safe (no arm raises it in this model). -/
  | notModelled (mnemonic : String)
  /-- Raised by `step` when the state's parameters break a constraint of R4, so that there is no such hardware (R5, U10: `refuse`); safe. -/
  | notAConfiguration
  deriving DecidableEq, Repr

/-- A node with both children and the leaf mark absent (R45). -/
def Node.empty : Node := ⟨none, none, none⟩

/-- The state after reset of an instance with parameters `cfg`, with nothing at the port (R48, R301). -/
def State.resetOf (cfg : Config) : State where
  cfg := cfg
  a0 := 0
  a1 := 0
  c := List.replicate cfg.cw 0
  term := 0
  result := 0
  cause := 0
  info := 0
  err := false
  ct := []
  bb := []
  src := []
  dst := []
  trie := [Node.empty]
  port := []
  replies := []

/-- The state after reset in the reference configuration of R4 (assumption 5). -/
def State.reset : State := State.resetOf Config.reference

end Sys2Proof.Machine
end

