-- ==== Sys2Proof/Machine/Flags.lean ====
section
/-! DEFINITION. Machine/Flags.lean: what a command's end writes into the four report registers: the one flag
`STATUS.ERR` (R25, R37), the cause number (R261) and the detail word (R262). -/

namespace Sys2Proof.Machine

/-- The cause codes of R261. -/
def Cause.code : Cause → BitVec 5
  | .emptyStreamError => 1
  | .invalidLengthError => 2
  | .indexOutOfRangeError => 3
  | .unknownSymbolError => 4
  | .conflictingCodeError => 5
  | .malformedStreamError => 6
  | .illegalCommand => 16
  | .capacityError => 17
  | .missingChild => 18
  | .badOperand => 19

/-- The cause a `raise` names (R261). -/
def Raised.cause : Raised → Cause
  | .invalidLength _ => .invalidLengthError
  | .indexOutOfRange _ => .indexOutOfRangeError
  | .unknownSymbol _ => .unknownSymbolError
  | .conflictingCode _ => .conflictingCodeError
  | .malformedStream _ => .malformedStreamError
  | .illegalCommand _ => .illegalCommand
  | .capacity _ => .capacityError
  | .missingChild _ => .missingChild
  | .badOperand _ => .badOperand

/-- Which memory `INFO` names for a CapacityError (R262). -/
def Store.number : Store → Word
  | .bb => 1
  | .src => 2
  | .dst => 3
  | .trie => 4

/-- Which operand `INFO` names for a BadOperand (R262). -/
def OperandReg.number : OperandReg → Word
  | .a0 => 0
  | .a1 => 1
  | .c => 2

/-- The `INFO` word of each cause (R262). -/
def Raised.info : Raised → Word
  | .invalidLength operand => operand
  | .indexOutOfRange operand => operand
  | .unknownSymbol i => BitVec.ofNat 32 i
  | .conflictingCode s => s
  | .malformedStream start => BitVec.ofNat 32 start
  | .illegalCommand w => w
  | .capacity m => m.number
  | .missingChild rp => BitVec.ofNat 32 rp
  | .badOperand o => o.number

/-- `STATUS` as the host reads it: ERR in bit 0, every other bit 0 (R25). -/
def statusWord (err : Bool) : Word := if err then 1 else 0

end Sys2Proof.Machine
end

