-- ==== Sys2Proof/Machine/Operands.lean ====
section
/-! DEFINITION. Machine/Operands.lean: every operand kind of R93, decoded from `A0`, `A1` and `C` as they stand when `CMD` is written,
and the carrier of a code in the `C` registers (R27). -/

namespace Sys2Proof.Machine

/-- The pseudocode's `if c: raise f` (R7). -/
def raiseIf (c : Prop) [Decidable c] (f : Raised) : Except Raised Unit :=
  if c then .error f else .ok ()

/-- `V = sum over k of x[C[k]] × 2^(32k)` (R27). -/
def carrierValue : List Word → Nat
  | [] => 0
  | w :: rest => w.toNat + 2 ^ 32 * carrierValue rest

/-- `b[j] = V[L-1-j]` for j in 0 .. L-1 (R27, R142). -/
def codeOfValue (len v : Nat) : Code :=
  (List.range len).map (fun j => v.testBit (len - 1 - j))

/-- `V = sum over j of b[j] × 2^(L-1-j)` (R27). -/
def valueOfCode : Code → Nat
  | [] => 0
  | b :: rest => b.toNat * 2 ^ rest.length + valueOfCode rest

/-- The registers `C[0] .. C[CW-1]` that carry V: `C[k] = V[32k+31:32k]` (R141). -/
def carrierOfValue (cw v : Nat) : List Word :=
  (List.range cw).map (fun k => BitVec.ofNat 32 (v / 2 ^ (32 * k)))

/-- Operand kind "symbol", from `A0` (R93). -/
def symbolOperand (s : State) : Except Raised Symbol := do
  raiseIf (s.a0.toNat ≥ s.cfg.nsym) (.badOperand .a0)
  return s.a0

/-- `CodeOperand()` (R142): a symbol and a bit string, checked in the order symbol, length, code bits. -/
def codeOperand (s : State) : Except Raised (Symbol × Code) := do
  let sym ← symbolOperand s
  raiseIf (s.a1.toNat > s.cfg.maxlen) (.badOperand .a1)
  raiseIf (carrierValue s.c ≥ 2 ^ s.a1.toNat) (.badOperand .c)
  return (sym, codeOfValue s.a1.toNat (carrierValue s.c))

/-- Operand kind "bit position" or "stream index", from `A0`, unsigned, against the length of the space (R93, R65). -/
def indexOperand (s : State) (length : Nat) : Except Raised Nat := do
  raiseIf (s.a0.toNat ≥ length) (.indexOutOfRange s.a0)
  return s.a0.toNat

/-- Operand kind "byte index", from `A0`: `8 × i` is computed exactly and must lie in the buffer (R93, R155). -/
def byteIndexOperand (s : State) : Except Raised Nat := do
  raiseIf (8 * s.a0.toNat ≥ s.bb.length) (.indexOutOfRange s.a0)
  return s.a0.toNat

/-- Operand kind "byte value", from `A1` (R93). -/
def byteOperand (s : State) : Except Raised Word := do
  raiseIf (s.a1.toNat > 255) (.badOperand .a1)
  return s.a1

/-- Operand kind "buffer length", from `A0`, signed two's complement (R93, R151). -/
def bufferLengthOperand (s : State) : Except Raised Nat := do
  raiseIf (s.a0.toInt < 0) (.invalidLength s.a0)
  raiseIf (s.a0.toInt > s.cfg.bbCap) (.capacity .bb)
  return s.a0.toInt.toNat

end Sys2Proof.Machine
end

