-- ==== Sys2Proof/Machine/Ops.lean ====
section
/-! DEFINITION. Machine/Ops.lean: how every command ends (R263, R264: the block's taking of a fault), and the named operations over
the code table, the BitBuffer and the trie node store. -/

namespace Sys2Proof.Machine

/-- `Complete(ok(value))` (R263). -/
def finish (s : State) (value : Word) : State :=
  { s with result := value, cause := 0, info := 0, err := false }

/-- `Complete(fault(cause, info))` (R263): all that taking a fault is in this block.
It saves the cause, the detail and the flag, and transfers control nowhere (R260, R268).
There is no return from it: the next command simply overwrites the report (R269). -/
def raise (s : State) (f : Raised) : State :=
  { s with result := 0, cause := f.cause.code, info := f.info, err := true }

/-- How a command ends (R122, R263): its new state and value when it ends by `ok`,
and when it raises, the report over `base`, the state R264 says a fault leaves. -/
def commit (base : State) : Except Raised (State × Word) → Host.Outcome State Fault Refusal
  | .ok (t, value) => .next (finish t value)
  | .error f => .next (raise base f)

/-- `CT[s]`: the code listed for a symbol value, the empty bit string if none is (R41). -/
def readEntry : CodeTable → Nat → Code
  | [], _ => []
  | (k, b) :: rest, s => if k = s then b else readEntry rest s

/-- A listed entry put at its place among rising symbol values. -/
def insertEntry (s : Nat) (b : Code) : CodeTable → CodeTable
  | [] => [(s, b)]
  | (k, c) :: rest => if s < k then (s, b) :: (k, c) :: rest else (k, c) :: insertEntry s b rest

/-- `CT[s] <- b` (R140): replaces the entry, or removes it when `b` is empty (R41). -/
def writeEntry (ct : CodeTable) (s : Nat) (b : Code) : CodeTable :=
  let others := ct.filter (fun e => e.1 ≠ s)
  if b = [] then others else insertEntry s b others

/-- `BB[p]` (R42). -/
def getBit (bb : List Bool) (p : Nat) : Bool := bb.getD p false

/-- `BB[p] <- v` (R42). -/
def putBit (bb : List Bool) (p : Nat) (v : Bool) : List Bool := bb.set p v

/-- The buffer a creation leaves: `n` bits, every bit 0 (R151, R187). -/
def zeroBuffer (n : Nat) : List Bool := List.replicate n false

/-- A bit as a result word. -/
def bitWord (b : Bool) : Word := if b then 1 else 0

/-- The byte at byte index `i`: the eight positions from 8i on, the first the most significant bit (position 8i + k counts 2^(7-k)),
a position at or beyond the length reading 0 (R62, R155). -/
def readByte (bb : List Bool) (i : Nat) : Nat :=
  valueOfCode ((List.range 8).map (fun k => getBit bb (8 * i + k)))

/-- The buffer after byte `i` is written with the low eight bits of `v`: position 8i + k takes bit 7 - k, every other position keeps
its bit, and a position at or beyond the length is not written (R62, R156). -/
def writeByte (bb : List Bool) (i : Nat) (v : Word) : List Bool :=
  bb.mapIdx (fun p b => if p / 8 = i then v.getLsbD (7 - p % 8) else b)

/-- `ToBitString()` (R158): the buffer's bits as '0' and '1', index 0 first. -/
def toBitString (bb : List Bool) : List Char := bb.map (fun b => if b then '1' else '0')

/-- The trie of TRIECLEAR and reset: the root alone (R45, R201). -/
def rootAlone : Trie := [Node.empty]

/-- `TRIE[k]`; an index outside the store reads as a node with nothing in it (no run reads one: R47, assumption 9). -/
def nodeAt (t : Trie) (k : Nat) : Node := t.getD k Node.empty

/-- `child[b]` of a node (R45). -/
def childOf (n : Node) (b : Bool) : Option Nat := if b then n.child1 else n.child0

/-- A node with `child[b]` set to `k`. -/
def withChild (n : Node) (b : Bool) (k : Nat) : Node :=
  if b then { n with child1 := some k } else { n with child0 := some k }

/-- The trie after a new, empty node is allocated at index `NODES` and hung under node `n` at bit `b` (R202). -/
def growChild (t : Trie) (n : Nat) (b : Bool) : Trie :=
  (t ++ [Node.empty]).set n (withChild (nodeAt t n) b t.length)

end Sys2Proof.Machine
end

