-- ==== Sys2Proof/Machine/Buffer.lean ====
section
/-! DEFINITION. Machine/Buffer.lean: the BitBuffer commands (R151 to R156). -/

namespace Sys2Proof.Machine

/-- BBCREATE (R151). -/
def execBbcreate (s : State) : Host.Outcome State Fault Refusal :=
  commit s do
    let n ← bufferLengthOperand s
    return ({ s with bb := zeroBuffer n }, 0)

/-- BBGET (R152). -/
def execBbget (s : State) : Host.Outcome State Fault Refusal :=
  commit s do
    let p ← indexOperand s s.bb.length
    return (s, bitWord (getBit s.bb p))

/-- BBSET (R153). -/
def execBbset (s : State) : Host.Outcome State Fault Refusal :=
  commit s do
    let p ← indexOperand s s.bb.length
    return ({ s with bb := putBit s.bb p true }, 0)

/-- BBCLEAR (R154). -/
def execBbclear (s : State) : Host.Outcome State Fault Refusal :=
  commit s do
    let p ← indexOperand s s.bb.length
    return ({ s with bb := putBit s.bb p false }, 0)

/-- BBRDBYTE (R155). -/
def execBbrdbyte (s : State) : Host.Outcome State Fault Refusal :=
  commit s do
    let i ← byteIndexOperand s
    return (s, BitVec.ofNat 32 (readByte s.bb i))

/-- BBWRBYTE (R156): the index is checked before the value. -/
def execBbwrbyte (s : State) : Host.Outcome State Fault Refusal :=
  commit s do
    let i ← byteIndexOperand s
    let v ← byteOperand s
    return ({ s with bb := writeByte s.bb i v }, 0)

end Sys2Proof.Machine
end

