-- ==== Sys2Proof/Machine/Decoder.lean ====
section
/-! DEFINITION. Machine/Decoder.lean: trie construction and the decode walk: TRIECLEAR, TRIEADD, TRIEBUILD, DECODE (R201 to R205). -/

namespace Sys2Proof.Machine

/-- The end of `Insert`, at the terminal node `n` (R202): cases (ii) and (iii), or the leaf mark. -/
def placeLeaf (sym : Symbol) (n : Nat) (t : Trie) : Except Raised Trie :=
  match (nodeAt t n).leaf with
  | some other => if other = sym then .ok t else .error (.conflictingCode sym)
  | none =>
    if (nodeAt t n).child0.isSome ∨ (nodeAt t n).child1.isSome then .error (.conflictingCode sym)
    else .ok (t.set n { nodeAt t n with leaf := some sym })

/-- The walk of `Insert` from node `n` on (R202): case (i), then a child followed or made, bit by bit.
The argument `t` is the pseudocode's copy T', which a fault discards. -/
def insertFrom (cap : Nat) (sym : Symbol) : Code → (n : Nat) → Trie → Except Raised Trie
  | [], n, t => placeLeaf sym n t
  | bit :: rest, n, t =>
    if (nodeAt t n).leaf.isSome then .error (.conflictingCode sym)
    else match childOf (nodeAt t n) bit with
      | some k => insertFrom cap sym rest k t
      | none =>
        if t.length = cap then .error (.capacity .trie)
        else insertFrom cap sym rest t.length (growChild t n bit)

/-- `Insert(T, s, b)` (R202). -/
def insertCode (cap : Nat) (t : Trie) (sym : Symbol) (b : Code) : Except Raised Trie :=
  insertFrom cap sym b 0 t

/-- The loop of TRIEBUILD over the symbol values still to come (R204). -/
def buildFrom (cap : Nat) (ct : CodeTable) : List Nat → (t : Trie) → (count : Nat) → Except Raised (Trie × Nat)
  | [], t, count => .ok (t, count)
  | s :: rest, t, count =>
    if (readEntry ct s).length ≠ 0 then
      match insertCode cap t (BitVec.ofNat 32 s) (readEntry ct s) with
      | .error f => .error f
      | .ok t' => buildFrom cap ct rest t' (count + 1)
    else buildFrom cap ct rest t count

/-- The decode walk over the bits from position `rp` on (R205): `np` the current node, `start` where the current code began,
`dst` what has been emitted. -/
def walkBits (t : Trie) (cap : Nat) : List Bool → (rp np start : Nat) → (dst : List Symbol) → Except Raised (List Symbol)
  | [], _, np, start, dst => if np ≠ 0 then .error (.malformedStream start) else .ok dst
  | bit :: rest, rp, np, start, dst =>
    match childOf (nodeAt t np) bit with
    | none => .error (.missingChild rp)
    | some k =>
      match (nodeAt t k).leaf with
      | none => walkBits t cap rest (rp + 1) k start dst
      | some sym =>
        if dst.length = cap then .error (.capacity .dst)
        else walkBits t cap rest (rp + 1) 0 (rp + 1) (dst ++ [sym])

/-- TRIECLEAR (R201). -/
def execTrieclear (s : State) : Host.Outcome State Fault Refusal :=
  commit s (.ok ({ s with trie := rootAlone }, 0))

/-- TRIEADD (R203): a code of length 0 is refused after the three checks of the operand. -/
def execTrieadd (s : State) : Host.Outcome State Fault Refusal :=
  commit s do
    let (sym, b) ← codeOperand s
    raiseIf (b.length = 0) (.badOperand .a1)
    let t ← insertCode s.cfg.nodeCap s.trie sym b
    return ({ s with trie := t }, BitVec.ofNat 32 t.length)

/-- TRIEBUILD (R204): symbols in ascending order into an empty trie; a fault leaves the root alone (R264). -/
def execTriebuild (s : State) : Host.Outcome State Fault Refusal :=
  commit { s with trie := rootAlone } do
    let (t, count) ← buildFrom s.cfg.nodeCap s.ct (List.range s.cfg.nsym) rootAlone 0
    return ({ s with trie := t }, BitVec.ofNat 32 count)

/-- DECODE (R205): a fault leaves `DSTLEN` = 0 (R264). -/
def execDecode (s : State) : Host.Outcome State Fault Refusal :=
  commit { s with dst := [] } do
    let dst ← walkBits s.trie s.cfg.dstCap s.bb 0 0 0 []
    return ({ s with dst := dst }, BitVec.ofNat 32 dst.length)

end Sys2Proof.Machine
end

