-- ==== Sys2Proof/Machine/Encoder.lean ====
section
/-! DEFINITION. Machine/Encoder.lean: the encoder's two passes and the commands ENCSIZE and ENCODE (R186, R187). -/

namespace Sys2Proof.Machine

/-- `Size()`, pass 1 of the encoder, from stream index `i` with `total` bits so far (R186). -/
def sizePass (ct : CodeTable) : (i total : Nat) → List Symbol → Except Raised Nat
  | _, total, [] => .ok total
  | i, total, sym :: rest =>
    if (readEntry ct sym.toNat).length = 0 then .error (.unknownSymbol i)
    else sizePass ct (i + 1) (total + (readEntry ct sym.toNat).length) rest

/-- One code of pass 2: its 1 bits set from position `wp` on, a 0 bit written nowhere (R187); with the new write position. -/
def writeCode : (bb : List Bool) → (wp : Nat) → Code → List Bool × Nat
  | bb, wp, [] => (bb, wp)
  | bb, wp, bit :: rest => writeCode (if bit then putBit bb wp true else bb) (wp + 1) rest

/-- Pass 2 of the encoder, from write position `wp` on (R187). -/
def writePass (ct : CodeTable) : (bb : List Bool) → (wp : Nat) → List Symbol → List Bool
  | bb, _, [] => bb
  | bb, wp, sym :: rest =>
    let (bb', wp') := writeCode bb wp (readEntry ct sym.toNat)
    writePass ct bb' wp' rest

/-- ENCSIZE (R186). -/
def execEncsize (s : State) : Host.Outcome State Fault Refusal :=
  commit s do
    let total ← sizePass s.ct 0 0 s.src
    return (s, BitVec.ofNat 32 total)

/-- ENCODE (R187): size, allocation, write; both faults come before the buffer is touched. -/
def execEncode (s : State) : Host.Outcome State Fault Refusal :=
  commit s do
    let total ← sizePass s.ct 0 0 s.src
    raiseIf (total > s.cfg.bbCap) (.capacity .bb)
    return ({ s with bb := writePass s.ct (zeroBuffer total) 0 s.src }, BitVec.ofNat 32 total)

end Sys2Proof.Machine
end

