-- ==== Sys2Proof/Machine/Streams.lean ====
section
/-! DEFINITION. Machine/Streams.lean: the symbol stream commands (R170 to R174). -/

namespace Sys2Proof.Machine

/-- `SRC[SRCLEN] <- sym`, `SRCLEN <- SRCLEN + 1`, or CapacityError(2) when the memory is full (R171, R173). -/
def appendSource (s : State) (sym : Symbol) : Except Raised State := do
  raiseIf (s.src.length = s.cfg.srcCap) (.capacity .src)
  return { s with src := s.src ++ [sym] }

/-- SRCCLEAR (R170). -/
def execSrcclear (s : State) : Host.Outcome State Fault Refusal :=
  commit s (.ok ({ s with src := [] }, 0))

/-- SRCPUSH (R171): the result is the new `SRCLEN`. -/
def execSrcpush (s : State) : Host.Outcome State Fault Refusal :=
  commit s do
    let sym ← symbolOperand s
    let t ← appendSource s sym
    return (t, BitVec.ofNat 32 t.src.length)

/-- SRCTERM (R173): only the last symbol is looked at. -/
def execSrcterm (s : State) : Host.Outcome State Fault Refusal :=
  commit s <|
    if s.src.getLast? = some s.term then .ok (s, 0)
    else do
      let t ← appendSource s s.term
      return (t, 1)

/-- SRCREAD (R172). -/
def execSrcread (s : State) : Host.Outcome State Fault Refusal :=
  commit s do
    let i ← indexOperand s s.src.length
    return (s, s.src.getD i 0)

/-- DSTREAD (R174). -/
def execDstread (s : State) : Host.Outcome State Fault Refusal :=
  commit s do
    let i ← indexOperand s s.dst.length
    return (s, s.dst.getD i 0)

end Sys2Proof.Machine
end

