-- ==== Sys2Proof/Machine/System.lean ====
section
/-! DEFINITION. Machine/System.lean: the system commands NOP and RESET (R123, R124). -/

namespace Sys2Proof.Machine

/-- Every piece of the block's state at its reset value (R48, R300); the parameters stay (R34),
and what the host and the integrator still send or have read is theirs, not the block's (R49). -/
def resetBlock (s : State) : State :=
  { State.resetOf s.cfg with port := s.port, replies := s.replies }

/-- NOP (R123). -/
def execNop (s : State) : Host.Outcome State Fault Refusal :=
  commit s (.ok (s, 0))

/-- RESET (R124). -/
def execReset (s : State) : Host.Outcome State Fault Refusal :=
  commit s (.ok (resetBlock s, 0))

end Sys2Proof.Machine
end

