-- ==== Sys2Proof/Machine/Table.lean ====
section
/-! DEFINITION. Machine/Table.lean: the code table commands CTWRITE and CTREAD (R140, R141). -/

namespace Sys2Proof.Machine

/-- CTWRITE (R140). -/
def execCtwrite (s : State) : Host.Outcome State Fault Refusal :=
  commit s do
    let (sym, b) ← codeOperand s
    return ({ s with ct := writeEntry s.ct sym.toNat b }, 0)

/-- CTREAD (R141): every one of the CW registers is written. -/
def execCtread (s : State) : Host.Outcome State Fault Refusal :=
  commit s do
    let sym ← symbolOperand s
    let b := readEntry s.ct sym.toNat
    return ({ s with c := carrierOfValue s.cfg.cw (valueOfCode b) }, BitVec.ofNat 32 b.length)

end Sys2Proof.Machine
end

