-- ==== Sys2Proof/Machine/Dispatch.lean ====
section
/-! DEFINITION. Machine/Dispatch.lean: which meaning each command has. -/

namespace Sys2Proof.Machine

def exec (i : Instr) (s : State) : Host.Outcome State Fault Refusal :=
  match i with
  | .nop => Sys2Proof.Machine.execNop s
  | .reset => Sys2Proof.Machine.execReset s
  | .ctwrite => Sys2Proof.Machine.execCtwrite s
  | .ctread => Sys2Proof.Machine.execCtread s
  | .bbcreate => Sys2Proof.Machine.execBbcreate s
  | .bbget => Sys2Proof.Machine.execBbget s
  | .bbset => Sys2Proof.Machine.execBbset s
  | .bbclear => Sys2Proof.Machine.execBbclear s
  | .bbrdbyte => Sys2Proof.Machine.execBbrdbyte s
  | .bbwrbyte => Sys2Proof.Machine.execBbwrbyte s
  | .srcclear => Sys2Proof.Machine.execSrcclear s
  | .srcpush => Sys2Proof.Machine.execSrcpush s
  | .srcterm => Sys2Proof.Machine.execSrcterm s
  | .srcread => Sys2Proof.Machine.execSrcread s
  | .dstread => Sys2Proof.Machine.execDstread s
  | .encsize => Sys2Proof.Machine.execEncsize s
  | .encode => Sys2Proof.Machine.execEncode s
  | .trieclear => Sys2Proof.Machine.execTrieclear s
  | .trieadd => Sys2Proof.Machine.execTrieadd s
  | .triebuild => Sys2Proof.Machine.execTriebuild s
  | .decode => Sys2Proof.Machine.execDecode s

end Sys2Proof.Machine
end

