-- ==== Sys2Proof/Machine/Port.lean ====
section
/-! DEFINITION. Machine/Port.lean: the host port: which register an index selects (R21), `HostRead` (R120), `HostWrite` (R121),
`Execute` (R122), the hardware reset input (R300), and one transaction taken from the port. -/

namespace Sys2Proof.Machine

/-- The word index of a register (R21). -/
def indexOf : Reg → BitVec 10
  | .id => 0x000
  | .cmd => 0x001
  | .status => 0x002
  | .cause => 0x003
  | .info => 0x004
  | .result => 0x005
  | .a0 => 0x006
  | .a1 => 0x007
  | .term => 0x008
  | .bblen => 0x009
  | .srclen => 0x00A
  | .dstlen => 0x00B
  | .nodes => 0x00C
  | .pSymw => 0x010
  | .pMaxlen => 0x011
  | .pBbcap => 0x012
  | .pSrccap => 0x013
  | .pDstcap => 0x014
  | .pNodecap => 0x015
  | .c k => BitVec.ofNat 10 (0x020 + k)

/-- The register an index selects, if it is mapped (R21, R68). -/
def regAt (cfg : Config) (index : BitVec 10) : Option Reg :=
  match index.toNat with
  | 0x000 => some .id
  | 0x001 => some .cmd
  | 0x002 => some .status
  | 0x003 => some .cause
  | 0x004 => some .info
  | 0x005 => some .result
  | 0x006 => some .a0
  | 0x007 => some .a1
  | 0x008 => some .term
  | 0x009 => some .bblen
  | 0x00A => some .srclen
  | 0x00B => some .dstlen
  | 0x00C => some .nodes
  | 0x010 => some .pSymw
  | 0x011 => some .pMaxlen
  | 0x012 => some .pBbcap
  | 0x013 => some .pSrccap
  | 0x014 => some .pDstcap
  | 0x015 => some .pNodecap
  | n => if 0x020 ≤ n ∧ n < 0x020 + cfg.cw then some (.c (n - 0x020)) else none

/-- The value a host read of a register returns, bits above the register's width 0 (R21, R120); `CMD` is write-only and reads 0 (R35). -/
def readReg (s : State) : Reg → Word
  | .id => idWord
  | .cmd => 0
  | .status => statusWord s.err
  | .cause => s.cause.zeroExtend 32
  | .info => s.info
  | .result => s.result
  | .a0 => s.a0
  | .a1 => s.a1
  | .term => s.term
  | .bblen => BitVec.ofNat 32 s.bb.length
  | .srclen => BitVec.ofNat 32 s.src.length
  | .dstlen => BitVec.ofNat 32 s.dst.length
  | .nodes => BitVec.ofNat 32 s.trie.length
  | .pSymw => BitVec.ofNat 32 s.cfg.symW
  | .pMaxlen => BitVec.ofNat 32 s.cfg.maxlen
  | .pBbcap => BitVec.ofNat 32 s.cfg.bbCap
  | .pSrccap => BitVec.ofNat 32 s.cfg.srcCap
  | .pDstcap => BitVec.ofNat 32 s.cfg.dstCap
  | .pNodecap => BitVec.ofNat 32 s.cfg.nodeCap
  | .c k => s.c.getD k 0

/-- `HostRead(index)` (R120): the value returned; an unmapped index returns 0 (R38). -/
def hostRead (s : State) (index : BitVec 10) : Word :=
  match regAt s.cfg index with
  | some r => readReg s r
  | none => 0

/-- `word[SYM_W-1:0]`, the part of a word that `TERM` keeps (R28). -/
def symbolPart (cfg : Config) (word : Word) : Word := BitVec.ofNat 32 (word.toNat % 2 ^ cfg.symW)

/-- `Execute(w)` (R122): an illegal word raises IllegalCommand and changes nothing else (R91); any other word runs its command. -/
def execute (s : State) (w : Word) : Host.Outcome State Fault Refusal :=
  match decodeWord w with
  | .error _ => commit s (.error (.illegalCommand w))
  | .ok i => exec i s

/-- `HostWrite(index, word)` (R121): a read-only register or an unmapped index drops the write (R38). -/
def hostWrite (s : State) (index : BitVec 10) (word : Word) : Host.Outcome State Fault Refusal :=
  match regAt s.cfg index with
  | some .cmd => execute s word
  | some .a0 => .next { s with a0 := word }
  | some .a1 => .next { s with a1 := word }
  | some .term => .next { s with term := symbolPart s.cfg word }
  | some (.c k) => .next { s with c := s.c.set k word }
  | some .id | some .status | some .cause | some .info | some .result
  | some .bblen | some .srclen | some .dstlen | some .nodes
  | some .pSymw | some .pMaxlen | some .pBbcap | some .pSrccap | some .pDstcap | some .pNodecap
  | none => .next s

/-- What one transaction does to the block. -/
def transact (s : State) : Transaction → Host.Outcome State Fault Refusal
  | .hostRead index => .next { s with replies := hostRead s index :: s.replies }
  | .hostWrite index word => hostWrite s index word
  | .hardReset => .next (resetBlock s)

/-- One transaction taken from the port, whole and before the next (R60, R70, R71); with nothing at the port the block waits (R301). -/
def takeTransaction (s : State) : Host.Outcome State Fault Refusal :=
  match s.port with
  | [] => .next s
  | t :: rest => transact { s with port := rest } t

/-- The write to `CMD` that hands the block the command word whose `nbits` bits are `w` (R35). -/
def commandWrite (nbits w : Nat) : Transaction :=
  .hostWrite (indexOf .cmd) (BitVec.ofNat 32 (w % 2 ^ nbits))

end Sys2Proof.Machine
end

