-- ==== Sys2Proof/Machine/Step.lean ====
section
/-! DEFINITION. Machine/Step.lean: one step of the machine: one transaction of the port. -/

namespace Sys2Proof.Machine

/-- One step.
A state whose parameters break R4 is not a state of this hardware and is refused (R5). -/
def step (s : State) : Host.Outcome State Fault Refusal :=
  if s.cfg.Valid then takeTransaction s else .refused .notAConfiguration

/-- `s` with a write of the command word to `CMD` placed first at the port, so that the very next step runs that command. -/
def State.withFetchWord (s : State) (nbits w : Nat) : State :=
  { s with port := commandWrite nbits w :: s.port }

end Sys2Proof.Machine
end

