-- ==== Sys2Proof/Machine/HostAssembler.lean ====
section
/-! DEFINITION. Machine/HostAssembler.lean: host side, not the block: the expansion of the assembler's statements and
pseudo-instructions into port transactions (R100 to R102), and a host that issues them. -/

namespace Sys2Proof.Machine

/-- The write of a command's word to `CMD`, the last transaction of every command statement (R100). -/
def commandTransaction (i : Instr) : Transaction := .hostWrite (indexOf .cmd) (encode i)

/-- `W C[k], V[32k+31:32k]` for k = 0 .. CW-1 (R100). -/
def carrierWrites (cfg : Config) (bits : Code) : List Transaction :=
  (carrierOfValue cfg.cw (valueOfCode bits)).mapIdx (fun k word => .hostWrite (indexOf (.c k)) word)

/-- The port transactions a statement stands for (R100, R102). -/
def expandStatement (cfg : Config) : Statement → List Transaction
  | .write reg value => [.hostWrite (indexOf reg) value]
  | .read reg => [.hostRead (indexOf reg)]
  | .bare i => [commandTransaction i]
  | .withA0 i operand => [.hostWrite (indexOf .a0) (BitVec.ofInt 32 operand), commandTransaction i]
  | .withByte index value =>
    [.hostWrite (indexOf .a0) index, .hostWrite (indexOf .a1) value, commandTransaction .bbwrbyte]
  | .withCode i s bits =>
    [.hostWrite (indexOf .a0) s, .hostWrite (indexOf .a1) (BitVec.ofNat 32 bits.length)] ++
      carrierWrites cfg bits ++ [commandTransaction i]

/-- The statements a pseudo-instruction stands for (R101), up to and with the read of a length that the rest depends on. -/
def expandPseudo : Pseudo → List Statement
  | .loadTable entries =>
    (entries.insertionSort (fun a b => a.1.toNat ≤ b.1.toNat)).map (fun e => .withCode .ctwrite e.1 e.2)
  | .loadStream symbols => .bare .srcclear :: symbols.map (fun s => .withA0 .srcpush s.toNat)
  | .loadBits bits =>
    .withA0 .bbcreate bits.length ::
      ((List.range bits.length).filter (fun p => getBit bits p)).map (fun p => .withA0 .bbset p)
  | .toBitString => [.read .bblen]
  | .readOut => [.read .dstlen]
  | .codecEncode => [.bare .srcterm, .bare .encode]
  | .codecDecode => [.bare .triebuild, .bare .decode]
  | .check => [.read .status, .read .cause, .read .info, .read .result]

/-- One read command and the read of its result, for each index 0 .. n-1 in order (R101, rows TOBITSTRING and READOUT). -/
def readLoop (i : Instr) (n : Nat) : List Statement :=
  (List.range n).flatMap (fun p : Nat => [Statement.withA0 i (p : Int), Statement.read .result])

/-- The statements that follow, where `n` is the word the last read returned (R101: `R BBLEN -> n`, `R DSTLEN -> n`). -/
def expandAfterRead : Pseudo → (n : Nat) → List Statement
  | .toBitString, n => readLoop .bbget n
  | .readOut, n => readLoop .dstread n
  | .loadTable _, _ | .loadStream _, _ | .loadBits _, _ | .codecEncode, _ | .codecDecode, _ | .check, _ => []

/-- A program's encoding: the port transactions of its statements, in order (R102). -/
def expandProgram (cfg : Config) (program : List Statement) : List Transaction :=
  program.flatMap (expandStatement cfg)

/-- Transactions issued one after another, each whole before the next (R70). -/
def issue (s : State) : List Transaction → Host.Outcome State Fault Refusal
  | [] => .next s
  | t :: rest =>
    match transact s t with
    | .next u => issue u rest
    | .fault f => .fault f
    | .refused r => .refused r

/-- Whether a statement is a command, whose end the host looks at (R101). -/
def isCommand : Statement → Bool
  | .write _ _ => false
  | .read _ => false
  | .bare _ => true
  | .withA0 _ _ => true
  | .withByte _ _ => true
  | .withCode _ _ _ => true

/-- A macro's statements issued in order; it "stops at the first command that faults" (R101). -/
def issueMacro (s : State) : List Statement → Host.Outcome State Fault Refusal
  | [] => .next s
  | st :: rest =>
    match issue s (expandStatement s.cfg st) with
    | .next u => if isCommand st ∧ u.err = true then .next u else issueMacro u rest
    | .fault f => .fault f
    | .refused r => .refused r

/-- The words the host has read between two states, in the order it read them. -/
def wordsRead (before after : State) : List Word :=
  (after.replies.take (after.replies.length - before.replies.length)).reverse

/-- A bit that was read as a word, as the character R101 writes for it. -/
def bitChar (w : Word) : Char := if w = 0 then '0' else '1'

/-- What a macro gives the host, from the words it read (R101): after the length, the n bits as '0'/'1', or the n symbols. -/
def macroResult : Pseudo → (words : List Word) → MacroResult
  | .toBitString, words => .bitString (words.tail.map bitChar)
  | .readOut, words => .symbols words.tail
  | .check, words => .report words
  | .loadTable _, _ | .loadStream _, _ | .loadBits _, _ | .codecEncode, _ | .codecDecode, _ => .nothing

/-- A pseudo-instruction issued by a host (R101): its statements, then those that depend on the word just read, each stopping at
the first command that faults; with what it gives the host, made of the words it read before it ended. -/
def runPseudo (s : State) (p : Pseudo) : Host.Outcome (State × MacroResult) Fault Refusal :=
  match issueMacro s (expandPseudo p) with
  | .fault f => .fault f
  | .refused r => .refused r
  | .next u =>
    match issueMacro u (expandAfterRead p (u.replies.headD 0).toNat) with
    | .fault f => .fault f
    | .refused r => .refused r
    | .next v => .next (v, macroResult p (wordsRead s v))

end Sys2Proof.Machine
end

