-- ==== Sys2Proof/Machine/HostCodeBuilder.lean ====
section
/-! DEFINITION. Machine/HostCodeBuilder.lean: host side, not the block: the FrequencyAnalyzer and the CodeBuilder (R231 to R237).
No step of the machine calls anything in this file (R230). -/

namespace Sys2Proof.Machine

/-- A FrequencyTable: each distinct symbol once, in rising order, with its count.
A weight is count / total; all share the denominator, so counts compare and add as weights do (R231). -/
abbrev FreqTable := List (Symbol × Nat)

/-- One more occurrence of a symbol. -/
def countSymbol (sym : Symbol) : FreqTable → FreqTable
  | [] => [(sym, 1)]
  | (s, n) :: rest =>
    if sym.toNat < s.toNat then (sym, 1) :: (s, n) :: rest
    else if sym = s then (s, n + 1) :: rest
    else (s, n) :: countSymbol sym rest

/-- The FrequencyAnalyzer (R231); EmptyStreamError is raised here, in host software only (R240). -/
def analyze (stream : List Symbol) : Except Cause FreqTable :=
  if stream = [] then .error .emptyStreamError
  else .ok (stream.foldl (fun t sym => countSymbol sym t) [])

/-- A WeightEntry (R232). -/
structure WeightEntry where
  weight : Nat
  group : List Symbol
  deriving DecidableEq, Repr

/-- Lexicographic order of symbol sequences, symbols by unsigned value, a proper prefix first (R233). -/
def groupLt : List Symbol → List Symbol → Bool
  | [], [] => false
  | [], _ :: _ => true
  | _ :: _, [] => false
  | x :: xs, y :: ys => decide (x.toNat < y.toNat) || (decide (x = y) && groupLt xs ys)

/-- The queue's order: weight, then group (R233). -/
def entryLt (x y : WeightEntry) : Bool :=
  decide (x.weight < y.weight) || (decide (x.weight = y.weight) && groupLt x.group y.group)

/-- A min-priority queue held as a list, smallest first. -/
def enqueue (e : WeightEntry) : List WeightEntry → List WeightEntry
  | [] => [e]
  | x :: rest => if entryLt e x then e :: x :: rest else x :: enqueue e rest

/-- One singleton entry per distinct symbol (R232). -/
def initialQueue (t : FreqTable) : List WeightEntry :=
  t.foldr (fun e q => enqueue ⟨e.2, [e.1]⟩ q) []

/-- A bit appended to the accumulated code of every symbol of a group (R234). -/
def appendBit (group : List Symbol) (bit : Bool) (acc : List (Symbol × Code)) : List (Symbol × Code) :=
  acc.map (fun e => if e.1 ∈ group then (e.1, e.2 ++ [bit]) else e)

/-- The merge loop (R234); the fuel is the number of entries, one more than the merges it makes. -/
def mergeLoop : (fuel : Nat) → List WeightEntry → List (Symbol × Code) → List (Symbol × Code)
  | 0, _, acc => acc
  | _ + 1, [], acc => acc
  | _ + 1, [_], acc => acc
  | fuel + 1, one :: zero :: rest, acc =>
    mergeLoop fuel (enqueue ⟨one.weight + zero.weight, one.group ++ zero.group⟩ rest)
      (appendBit zero.group false (appendBit one.group true acc))

/-- The CodeBuilder (R232 to R237): one symbol gets the code "0" (R236), otherwise merge and reverse (R235). -/
def buildTable (t : FreqTable) : List (Symbol × Code) :=
  match t with
  | [(sym, _)] => [(sym, [false])]
  | _ => (mergeLoop t.length (initialQueue t) (t.map (fun e => (e.1, [])))).map (fun e => (e.1, e.2.reverse))

end Sys2Proof.Machine
end

