-- ==== Sys2Proof/Safety.lean ====
section
/-! DEFINITION. Safety.lean: what a legal state is (the invariants the spec gives the state), and the words statements are written in. -/

namespace Sys2Proof.Machine

/-- The code table's canonical form (R41): symbol values strictly rising and below NSYM, every listed code of length 1 .. MAXLEN. -/
abbrev Memory.wf (cfg : Config) (ct : CodeTable) : Prop :=
  ct.Pairwise (fun e f => e.1 < f.1) ∧
  ∀ e ∈ ct, e.1 < cfg.nsym ∧ 1 ≤ e.2.length ∧ e.2.length ≤ cfg.maxlen

/-- The trie invariants of R47 over the node store, with the bounds of R32.
That a child's index is above its parent's is how nodes are allocated (R45), and makes every node reachable from the root. -/
structure TrieInv (cfg : Config) (t : Trie) : Prop where
  /-- 1 ≤ NODES ≤ NODE_CAP (R32). -/
  size : 1 ≤ t.length ∧ t.length ≤ cfg.nodeCap
  /-- A child index is a node of the store, allocated after its parent (R45). -/
  edge : ∀ n b k, childOf (nodeAt t n) b = some k → n < k ∧ k < t.length
  /-- R47 (a): every node but the root is the child of some node. -/
  hasParent : ∀ k, 1 ≤ k → k < t.length → ∃ n b, childOf (nodeAt t n) b = some k
  /-- R47 (a): of exactly one node, under exactly one bit. -/
  oneParent : ∀ k n b n' b', childOf (nodeAt t n) b = some k → childOf (nodeAt t n') b' = some k → n = n' ∧ b = b'
  /-- R47 (b). -/
  rootNoLeaf : (nodeAt t 0).leaf = none
  /-- R47 (c). -/
  leafNoChild : ∀ n b, (nodeAt t n).leaf ≠ none → childOf (nodeAt t n) b = none
  /-- R47 (d). -/
  barrenIsLeaf : ∀ n, n ≠ 0 → n < t.length → childOf (nodeAt t n) false = none → childOf (nodeAt t n) true = none →
    (nodeAt t n).leaf ≠ none
  /-- A leaf stores a symbol (R9, R45). -/
  leafSymbol : ∀ n sym, (nodeAt t n).leaf = some sym → sym.toNat < cfg.nsym

/-- What the spec says holds of the state after reset and after every transaction. -/
structure State.Inv (s : State) : Prop where
  /-- R4, R5. -/
  valid : s.cfg.Valid
  /-- There are CW code operand registers (R21). -/
  cCount : s.c.length = s.cfg.cw
  /-- `TERM` holds a symbol (R28). -/
  termSymbol : s.term.toNat < s.cfg.nsym
  /-- `STATUS.ERR` is "always equal to `(CAUSE != 0)`" (R25). -/
  errIsCause : s.err = decide (s.cause ≠ 0)
  /-- The codes that can appear in `CAUSE` (R261, R274). -/
  causeNamed : s.cause ∈ ([0, 2, 3, 4, 5, 6, 16, 17, 18, 19] : List (BitVec 5))
  /-- `INFO` is 0 after a normal end (R26). -/
  okInfo : s.cause = 0 → s.info = 0
  /-- `RESULT` is 0 on a fault (R24). -/
  faultResult : s.cause ≠ 0 → s.result = 0
  /-- R41. -/
  table : Memory.wf s.cfg s.ct
  /-- BBLEN ≤ BB_CAP (R29). -/
  bbFits : s.bb.length ≤ s.cfg.bbCap
  /-- SRCLEN ≤ SRC_CAP (R30). -/
  srcFits : s.src.length ≤ s.cfg.srcCap
  /-- DSTLEN ≤ DST_CAP (R31). -/
  dstFits : s.dst.length ≤ s.cfg.dstCap
  /-- `SRC` holds symbols (R9, R43). -/
  srcSymbols : ∀ sym ∈ s.src, sym.toNat < s.cfg.nsym
  /-- `DST` holds symbols (R9, R44). -/
  dstSymbols : ∀ sym ∈ s.dst, sym.toNat < s.cfg.nsym
  /-- R32, R45, R47. -/
  trieInv : TrieInv s.cfg s.trie

/-- The report of a normal end with a value, written out (R263). -/
abbrev okReport (s : State) (value : Word) : State :=
  { s with result := value, cause := 0, info := 0, err := false }

/-- The report of a fault, written out (R263). -/
abbrev faultReport (s : State) (cause : BitVec 5) (info : Word) : State :=
  { s with result := 0, cause := cause, info := info, err := true }

/-- The node reached from node `n` along the bits of `p`, if every child on the way is present (R97). -/
def followPath (t : Trie) : (n : Nat) → Code → Option Nat
  | n, [] => some n
  | n, b :: rest =>
    match childOf (nodeAt t n) b with
    | some k => followPath t k rest
    | none => none

/-- The symbol stored at the end of the path `p` from the root, if it ends at a leaf. -/
def leafAt (t : Trie) (p : Code) : Option Symbol :=
  (followPath t 0 p).bind (fun n => (nodeAt t n).leaf)

/-- One code is a prefix of the other (equal codes count: the glossary's "prefix-free"). -/
abbrev comparable (p q : Code) : Prop := p <+: q ∨ q <+: p

/-- The entries of the symbol values below `m` are prefix-free: no two symbols' codes are comparable (R143). -/
abbrev PrefixFreeBelow (ct : CodeTable) (m : Nat) : Prop :=
  ∀ a < m, ∀ b < m, a ≠ b → readEntry ct a ≠ [] → readEntry ct b ≠ [] → ¬ comparable (readEntry ct a) (readEntry ct b)

/-- Every symbol of the stream has an entry: the table is usable by the encoder (R143). -/
abbrev AllCoded (ct : CodeTable) (stream : List Symbol) : Prop :=
  ∀ sym ∈ stream, readEntry ct sym.toNat ≠ []

/-- The encoded message of R96: the concatenation of the stream's codes. -/
def message (ct : CodeTable) (stream : List Symbol) : Code :=
  stream.flatMap (fun sym => readEntry ct sym.toNat)

/-- The codes of a list of symbol values, in its order, those without an entry left out. -/
def codesOf (ct : CodeTable) (l : List Nat) : List Code := (l.map (readEntry ct)).filter (fun b => b ≠ [])

/-- The number of nodes on the path of `b` from node `n` that the trie does not have yet: what `Insert` must allocate (R202). -/
def missingNodes (t : Trie) : (n : Nat) → Code → Nat
  | _, [] => 0
  | n, b :: rest =>
    match childOf (nodeAt t n) b with
    | some k => missingNodes t k rest
    | none => rest.length + 1

/-- The number of nodes a trie of these codes has: the root, and one node for each distinct non-empty prefix of a code. -/
def trieSize (codes : List Code) : Nat :=
  ([] :: codes.flatMap List.inits).dedup.length

end Sys2Proof.Machine
end

