-- ==== Sys2Proof/Certificates/Slice0/Obligations.lean ====
section
/-! DEFINITION. Certificates/Slice0/Obligations.lean: the statements for the provers, each formalising rules of the spec. -/

open Sys2Proof Sys2Proof.Machine

/-- The 21 command words of R92 with the command each names, written out from the column "Command word". -/
def Sys2Proof.Claims.commandTable : List (Word × Instr) :=
  [(0x00000000, .nop), (0x00000001, .reset), (0x00000008, .ctwrite), (0x00000009, .ctread), (0x00000010, .bbcreate),
   (0x00000011, .bbget), (0x00000012, .bbset), (0x00000013, .bbclear), (0x00000014, .bbrdbyte), (0x00000015, .bbwrbyte),
   (0x00000020, .srcclear), (0x00000021, .srcpush), (0x00000022, .srcterm), (0x00000023, .srcread), (0x00000028, .dstread),
   (0x00000030, .encsize), (0x00000031, .encode), (0x00000040, .trieclear), (0x00000041, .trieadd), (0x00000042, .triebuild),
   (0x00000043, .decode)]

/-- Which word indices are mapped (R68). -/
abbrev Sys2Proof.Claims.mapped (cfg : Config) (n : Nat) : Prop :=
  n ≤ 0x00C ∨ (0x010 ≤ n ∧ n ≤ 0x015) ∨ (0x020 ≤ n ∧ n < 0x020 + cfg.cw)

/-- R27's V, the value the `C` registers carry, as the sum the rule writes. -/
def Sys2Proof.Claims.operandValue (s : State) : Nat :=
  ((List.range s.c.length).map (fun k => (s.c.getD k 0).toNat * 2 ^ (32 * k))).sum

/-- R27's V of a code, as the sum the rule writes. -/
def Sys2Proof.Claims.codeValue (b : Code) : Nat :=
  ((List.range b.length).map (fun j => (b.getD j false).toNat * 2 ^ (b.length - 1 - j))).sum

/-- The state R48 gives, over what the host and the integrator still send or have read. -/
def Sys2Proof.Claims.afterReset (s : State) : State :=
  { s with
    a0 := 0, a1 := 0, c := List.replicate s.cfg.cw 0, term := 0, result := 0, cause := 0, info := 0, err := false,
    ct := [], bb := [], src := [], dst := [], trie := [⟨none, none, none⟩] }

open Sys2Proof.Claims

/-! ### Encoding -/

/-- R92: each of the 21 command words decodes to the command of its row. -/
def Obligations.CommandWordsDecodeToTheirCommands : Prop :=
  ∀ row ∈ commandTable, decodeWord row.1 = .ok row.2

/-- R91: "every 32-bit word either names exactly one command or is illegal": the decoder accepts a word for a command
exactly when it is the word the encoder gives that command, over all 2^32 words. -/
def Obligations.DecodeAcceptsExactlyTheEncodedWord : Prop :=
  ∀ (w : Word) (i : Instr), i.WellFormed → (decodeWord w = .ok i ↔ w = encode i)

/-- R91, R94: a word is rejected by name: by its reserved field if bits 31:8 are not 0, else by its opcode. -/
def Obligations.IllegalWordsAreRejectedByName : Prop :=
  ∀ w : Word,
    (decodeWord w = .error .reservedBits ↔ 256 ≤ w.toNat) ∧
    (decodeWord w = .error .unassignedOpcode ↔ w.toNat < 256 ∧ w ∉ commandTable.map (·.1))

/-! ### The step and the host port -/

/-- R122: a write of a command's word to `CMD` (index 0x001) runs exactly that command, in the state that is left when
the transaction has been taken from the port (the queue at the port is the model's own: assumption 1). -/
def Obligations.StepRunsTheDecodedCommand : Prop :=
  ∀ (s : State) (rest : List Transaction) (w : Word) (i : Instr),
    s.cfg.Valid → s.port = .hostWrite 0x001 w :: rest → decodeWord w = .ok i →
    step s = exec i { s with port := rest }

/-- R91: an illegal word written to `CMD` raises IllegalCommand (16) with the word in `INFO` and changes nothing else;
any other word runs the command its low eight bits name. -/
def Obligations.IllegalCommandReportsAndChangesNothingElse : Prop :=
  ∀ (s : State) (rest : List Transaction) (w : Word),
    s.cfg.Valid → s.port = .hostWrite 0x001 w :: rest →
    ((w.extractLsb' 8 24 ≠ 0 ∨ ∀ row ∈ commandTable, row.1.extractLsb' 0 8 ≠ w.extractLsb' 0 8) →
      step s = .next (faultReport { s with port := rest } 16 w)) ∧
    (∀ row ∈ commandTable, w.extractLsb' 8 24 = 0 → row.1.extractLsb' 0 8 = w.extractLsb' 0 8 →
      step s = exec row.2 { s with port := rest })

/-- R120: a host read returns the register its index selects, bits above the register's width 0, `CMD` and every unmapped
index 0; it changes no state of the block (the word returned is put before the model's own list of replies: assumption 2). -/
def Obligations.HostReadReturnsTheRegisterAndChangesNothing : Prop :=
  ∀ (s : State) (rest : List Transaction) (index : BitVec 10),
    s.cfg.Valid → s.port = .hostRead index :: rest →
    ∃ v : Word, step s = .next { s with port := rest, replies := v :: s.replies } ∧
      (index.toNat = 0x000 → v = 0x48424331) ∧
      (index.toNat = 0x001 → v = 0) ∧
      (index.toNat = 0x002 → v = if s.err then 1 else 0) ∧
      (index.toNat = 0x003 → v.toNat = s.cause.toNat) ∧
      (index.toNat = 0x004 → v = s.info) ∧
      (index.toNat = 0x005 → v = s.result) ∧
      (index.toNat = 0x006 → v = s.a0) ∧
      (index.toNat = 0x007 → v = s.a1) ∧
      (index.toNat = 0x008 → v = s.term) ∧
      (index.toNat = 0x009 → v = BitVec.ofNat 32 s.bb.length) ∧
      (index.toNat = 0x00A → v = BitVec.ofNat 32 s.src.length) ∧
      (index.toNat = 0x00B → v = BitVec.ofNat 32 s.dst.length) ∧
      (index.toNat = 0x00C → v = BitVec.ofNat 32 s.trie.length) ∧
      (index.toNat = 0x010 → v = BitVec.ofNat 32 s.cfg.symW) ∧
      (index.toNat = 0x011 → v = BitVec.ofNat 32 s.cfg.maxlen) ∧
      (index.toNat = 0x012 → v = BitVec.ofNat 32 s.cfg.bbCap) ∧
      (index.toNat = 0x013 → v = BitVec.ofNat 32 s.cfg.srcCap) ∧
      (index.toNat = 0x014 → v = BitVec.ofNat 32 s.cfg.dstCap) ∧
      (index.toNat = 0x015 → v = BitVec.ofNat 32 s.cfg.nodeCap) ∧
      (∀ k < s.cfg.cw, index.toNat = 0x020 + k → v = s.c.getD k 0) ∧
      (¬ mapped s.cfg index.toNat → v = 0)

/-- R121: a host write stores the word in `A0`, `A1` or `C[k]`, its low SYM_W bits in `TERM`, executes it at `CMD`,
and at a read-only register or an unmapped index does nothing. -/
def Obligations.HostWriteStoresOnlyInWritableRegisters : Prop :=
  ∀ (s : State) (rest : List Transaction) (index : BitVec 10) (w : Word),
    s.cfg.Valid → s.port = .hostWrite index w :: rest →
    (index.toNat = 0x001 → step s = execute { s with port := rest } w) ∧
    (index.toNat = 0x006 → step s = .next { s with port := rest, a0 := w }) ∧
    (index.toNat = 0x007 → step s = .next { s with port := rest, a1 := w }) ∧
    (index.toNat = 0x008 → ∃ v : Word, v.toNat = w.toNat % 2 ^ s.cfg.symW ∧ step s = .next { s with port := rest, term := v }) ∧
    (∀ k < s.cfg.cw, index.toNat = 0x020 + k → step s = .next { s with port := rest, c := s.c.set k w }) ∧
    (index.toNat ≠ 0x001 → index.toNat ≠ 0x006 → index.toNat ≠ 0x007 → index.toNat ≠ 0x008 →
      ¬ (0x020 ≤ index.toNat ∧ index.toNat < 0x020 + s.cfg.cw) → step s = .next { s with port := rest })

/-- R301: with no transaction at the port nothing runs: the block waits (that a step is then an unchanged state is
the model's reading: assumption 3). -/
def Obligations.StepWaitsWithNothingAtThePort : Prop :=
  ∀ s : State, s.cfg.Valid → s.port = [] → step s = .next s

/-- R5: a state whose parameters break a constraint of R4 is refused (that `step` is where it is refused is the model's
choice: assumption 6). -/
def Obligations.StepRefusesAnInvalidConfiguration : Prop :=
  ∀ s : State, ¬ s.cfg.Valid → step s = .refused .notAConfiguration

/-- R300: the hardware reset and the RESET command give the same state, every value the one R48 states (that a hardware
reset is an input at the port, and that the transactions behind it stay, is the model's choice: assumption 12). -/
def Obligations.BothResetsGiveTheResetState : Prop :=
  ∀ (s : State) (rest : List Transaction), s.cfg.Valid →
    step { s with port := .hardReset :: rest } = .next (afterReset { s with port := rest }) ∧
    step { s with port := .hostWrite 0x001 0x00000001 :: rest } = .next (afterReset { s with port := rest })

/-- R34: the parameter registers read the parameters, and no step changes them, not even a reset. -/
def Obligations.ParametersNeverChange : Prop :=
  ∀ s t : State, step s = .next t →
    t.cfg = s.cfg ∧
    hostRead t 0x010 = BitVec.ofNat 32 s.cfg.symW ∧ hostRead t 0x011 = BitVec.ofNat 32 s.cfg.maxlen ∧
    hostRead t 0x012 = BitVec.ofNat 32 s.cfg.bbCap ∧ hostRead t 0x013 = BitVec.ofNat 32 s.cfg.srcCap ∧
    hostRead t 0x014 = BitVec.ofNat 32 s.cfg.dstCap ∧ hostRead t 0x015 = BitVec.ofNat 32 s.cfg.nodeCap

/-- R48: what the registers read and the memories hold after reset, in every configuration of the hardware. -/
def Obligations.ResetStateHasTheStatedValues : Prop :=
  ∀ cfg : Config, cfg.Valid →
    (∀ n ∈ ([0x001, 0x002, 0x003, 0x004, 0x005, 0x006, 0x007, 0x008, 0x009, 0x00A, 0x00B] : List (BitVec 10)),
      hostRead (State.resetOf cfg) n = 0) ∧
    (∀ k < cfg.cw, hostRead (State.resetOf cfg) (BitVec.ofNat 10 (0x020 + k)) = 0) ∧
    hostRead (State.resetOf cfg) 0x00C = 1 ∧
    hostRead (State.resetOf cfg) 0x000 = 0x48424331 ∧
    hostRead (State.resetOf cfg) 0x010 = BitVec.ofNat 32 cfg.symW ∧
    hostRead (State.resetOf cfg) 0x011 = BitVec.ofNat 32 cfg.maxlen ∧
    hostRead (State.resetOf cfg) 0x012 = BitVec.ofNat 32 cfg.bbCap ∧
    hostRead (State.resetOf cfg) 0x013 = BitVec.ofNat 32 cfg.srcCap ∧
    hostRead (State.resetOf cfg) 0x014 = BitVec.ofNat 32 cfg.dstCap ∧
    hostRead (State.resetOf cfg) 0x015 = BitVec.ofNat 32 cfg.nodeCap ∧
    (∀ sym, readEntry (State.resetOf cfg).ct sym = []) ∧
    (State.resetOf cfg).bb = [] ∧ (State.resetOf cfg).src = [] ∧ (State.resetOf cfg).dst = [] ∧
    (State.resetOf cfg).trie = [⟨none, none, none⟩]

/-! ### System commands -/

/-- R123: NOP writes 0 into the four report registers and changes nothing else. -/
def Obligations.NopOnlyClearsTheReport : Prop :=
  ∀ s : State, exec .nop s = .next { s with result := 0, cause := 0, info := 0, err := false }

/-- R124: RESET takes every piece of the block's state to its reset value. -/
def Obligations.ResetCommandResetsEveryPieceOfState : Prop :=
  decodeWord 0x00000001 = .ok .reset ∧ ∀ s : State, exec .reset s = .next (afterReset s)

/-! ### Code table -/

/-- R140 with the operand decoding of R142: the three checks in order, each leaving the table unchanged; otherwise the entry
of the symbol becomes the L bits of V, first bit most significant, and every other entry stays. -/
def Obligations.CtwriteStoresOneEntry : Prop :=
  decodeWord 0x00000008 = .ok .ctwrite ∧ ∀ s : State,
    (s.cfg.nsym ≤ s.a0.toNat → exec .ctwrite s = .next (faultReport s 19 0)) ∧
    (s.a0.toNat < s.cfg.nsym → s.cfg.maxlen < s.a1.toNat → exec .ctwrite s = .next (faultReport s 19 1)) ∧
    (s.a0.toNat < s.cfg.nsym → s.a1.toNat ≤ s.cfg.maxlen → 2 ^ s.a1.toNat ≤ operandValue s →
      exec .ctwrite s = .next (faultReport s 19 2)) ∧
    (s.a0.toNat < s.cfg.nsym → s.a1.toNat ≤ s.cfg.maxlen → operandValue s < 2 ^ s.a1.toNat →
      ∃ ct : CodeTable, exec .ctwrite s = .next (okReport { s with ct := ct } 0) ∧
        (readEntry ct s.a0.toNat).length = s.a1.toNat ∧
        (∀ j < s.a1.toNat, (readEntry ct s.a0.toNat)[j]? = some ((operandValue s).testBit (s.a1.toNat - 1 - j))) ∧
        ∀ k, k ≠ s.a0.toNat → readEntry ct k = readEntry s.ct k)

/-- R141: CTREAD returns the length in `RESULT` and the code in all CW registers of `C`, and only those change;
an out-of-range symbol leaves `C` unchanged. -/
def Obligations.CtreadReturnsTheEntry : Prop :=
  decodeWord 0x00000009 = .ok .ctread ∧ ∀ s : State,
    (s.cfg.nsym ≤ s.a0.toNat → exec .ctread s = .next (faultReport s 19 0)) ∧
    (s.a0.toNat < s.cfg.nsym →
      ∃ words : List Word,
        exec .ctread s = .next (okReport { s with c := words } (BitVec.ofNat 32 (readEntry s.ct s.a0.toNat).length)) ∧
        words.length = s.cfg.cw ∧
        ∀ k : Nat, k < s.cfg.cw → words[k]? = some (BitVec.ofNat 32 (codeValue (readEntry s.ct s.a0.toNat) / 2 ^ (32 * k))))

/-- R27, R140, R141: CTREAD after CTWRITE of the same symbol gives the operand back: `C` as it was and the length in `RESULT`. -/
def Obligations.CtreadAfterCtwriteReturnsTheOperand : Prop :=
  ∀ s : State, s.c.length = s.cfg.cw →
    s.a0.toNat < s.cfg.nsym → s.a1.toNat ≤ s.cfg.maxlen → operandValue s < 2 ^ s.a1.toNat →
    ∃ t : State, exec .ctwrite s = .next t ∧ exec .ctread t = .next { t with result := s.a1 }

/-- The canonical form of the code table is the model's own (DESIGN CHOICE: assumption 8), no rule of the spec: in that form two
tables that give every symbol the same code are the same data. -/
def Obligations.CanonicalTablesWithEqualEntriesAreEqual : Prop :=
  ∀ (cfg : Config) (ct₁ ct₂ : CodeTable), Memory.wf cfg ct₁ → Memory.wf cfg ct₂ →
    (∀ sym < cfg.nsym, readEntry ct₁ sym = readEntry ct₂ sym) → ct₁ = ct₂

/-! ### BitBuffer -/

/-- R151: BBCREATE reads its length signed; negative is InvalidLengthError, above BB_CAP CapacityError(1), each leaving the
buffer unchanged; otherwise the buffer is that many zero bits. -/
def Obligations.BbcreateMakesAZeroedBuffer : Prop :=
  ∀ s : State,
    (s.a0.toInt < 0 → exec .bbcreate s = .next (faultReport s 2 s.a0)) ∧
    (0 ≤ s.a0.toInt → (s.cfg.bbCap : Int) < s.a0.toInt → exec .bbcreate s = .next (faultReport s 17 1)) ∧
    (0 ≤ s.a0.toInt → s.a0.toInt ≤ (s.cfg.bbCap : Int) →
      ∃ bb : List Bool, exec .bbcreate s = .next (okReport { s with bb := bb } 0) ∧
        (bb.length : Int) = s.a0.toInt ∧ ∀ p < bb.length, bb[p]? = some false)

/-- R152: BBGET returns the bit at a position of the buffer; beyond the length it faults; the buffer is unchanged. -/
def Obligations.BbgetReturnsTheBit : Prop :=
  decodeWord 0x00000011 = .ok .bbget ∧ ∀ s : State,
    (s.bb.length ≤ s.a0.toNat → exec .bbget s = .next (faultReport s 3 s.a0)) ∧
    (∀ bit : Bool, s.bb[s.a0.toNat]? = some bit → exec .bbget s = .next (okReport s (if bit then 1 else 0)))

/-- R153: BBSET makes one bit 1; no other bit and no length changes; beyond the length it faults and changes nothing. -/
def Obligations.BbsetSetsOneBit : Prop :=
  decodeWord 0x00000012 = .ok .bbset ∧ ∀ s : State,
    (s.bb.length ≤ s.a0.toNat → exec .bbset s = .next (faultReport s 3 s.a0)) ∧
    (s.a0.toNat < s.bb.length →
      ∃ bb : List Bool, exec .bbset s = .next (okReport { s with bb := bb } 0) ∧ bb.length = s.bb.length ∧
        bb[s.a0.toNat]? = some true ∧ ∀ q, q ≠ s.a0.toNat → bb[q]? = s.bb[q]?)

/-- R154: BBCLEAR makes one bit 0; no other bit and no length changes; beyond the length it faults and changes nothing. -/
def Obligations.BbclearClearsOneBit : Prop :=
  ∀ s : State,
    (s.bb.length ≤ s.a0.toNat → exec .bbclear s = .next (faultReport s 3 s.a0)) ∧
    (s.a0.toNat < s.bb.length →
      ∃ bb : List Bool, exec .bbclear s = .next (okReport { s with bb := bb } 0) ∧ bb.length = s.bb.length ∧
        bb[s.a0.toNat]? = some false ∧ ∀ q, q ≠ s.a0.toNat → bb[q]? = s.bb[q]?)

/-- R155: BBRDBYTE returns eight positions as a byte, the lower position the more significant bit, a position beyond the
length 0; a byte whose first position is not in the buffer faults, with `8 × i` exact; the buffer is unchanged. -/
def Obligations.BbrdbytePacksEightPositions : Prop :=
  decodeWord 0x00000014 = .ok .bbrdbyte ∧ ∀ s : State,
    (s.bb.length ≤ 8 * s.a0.toNat → exec .bbrdbyte s = .next (faultReport s 3 s.a0)) ∧
    (8 * s.a0.toNat < s.bb.length →
      ∃ v : Word, exec .bbrdbyte s = .next (okReport s v) ∧ v.toNat < 256 ∧
        ∀ k < 8, v.getLsbD (7 - k) = (s.bb[8 * s.a0.toNat + k]?).getD false)

/-- R156: BBWRBYTE writes eight positions from a byte; positions beyond the length are dropped, every other bit and the length
stay; the index is checked before the value; on either fault nothing changes. -/
def Obligations.BbwrbyteWritesEightPositions : Prop :=
  ∀ s : State,
    (s.bb.length ≤ 8 * s.a0.toNat → exec .bbwrbyte s = .next (faultReport s 3 s.a0)) ∧
    (8 * s.a0.toNat < s.bb.length → 255 < s.a1.toNat → exec .bbwrbyte s = .next (faultReport s 19 1)) ∧
    (8 * s.a0.toNat < s.bb.length → s.a1.toNat ≤ 255 →
      ∃ bb : List Bool, exec .bbwrbyte s = .next (okReport { s with bb := bb } 0) ∧ bb.length = s.bb.length ∧
        (∀ k < 8, 8 * s.a0.toNat + k < s.bb.length → bb[8 * s.a0.toNat + k]? = some (s.a1.getLsbD (7 - k))) ∧
        ∀ q, (q < 8 * s.a0.toNat ∨ 8 * s.a0.toNat + 8 ≤ q) → bb[q]? = s.bb[q]?)

/-- R62, R155, R156: the byte BBRDBYTE reads after BBWRBYTE is the byte written, with the bits that have no position 0. -/
def Obligations.ByteWrittenReadsBack : Prop :=
  ∀ s : State, 8 * s.a0.toNat < s.bb.length → s.a1.toNat ≤ 255 →
    ∃ (t : State) (v : Word), exec .bbwrbyte s = .next t ∧ exec .bbrdbyte t = .next (okReport t v) ∧ v.toNat < 256 ∧
      ∀ k < 8, v.getLsbD (7 - k) = (decide (8 * s.a0.toNat + k < s.bb.length) && s.a1.getLsbD (7 - k))

/-- R29, R42, R157: the buffer's length is fixed between two creations: only BBCREATE, ENCODE and RESET change `BBLEN`. -/
def Obligations.BufferLengthIsFixedBetweenCreations : Prop :=
  ∀ (i : Instr) (s t : State), exec i s = .next t → i ∉ ([.bbcreate, .encode, .reset] : List Instr) → t.bb.length = s.bb.length

/-! ### Symbol streams -/

/-- R170: SRCCLEAR empties the source stream; the other memories are untouched. -/
def Obligations.SrcclearEmptiesTheStream : Prop :=
  decodeWord 0x00000020 = .ok .srcclear ∧ ∀ s : State, exec .srcclear s = .next (okReport { s with src := [] } 0)

/-- R171: SRCPUSH appends one symbol and returns the new length; BadOperand(0), then CapacityError(2), leave the stream. -/
def Obligations.SrcpushAppendsOneSymbol : Prop :=
  decodeWord 0x00000021 = .ok .srcpush ∧ ∀ s : State,
    (s.cfg.nsym ≤ s.a0.toNat → exec .srcpush s = .next (faultReport s 19 0)) ∧
    (s.a0.toNat < s.cfg.nsym → s.src.length = s.cfg.srcCap → exec .srcpush s = .next (faultReport s 17 2)) ∧
    (s.a0.toNat < s.cfg.nsym → s.src.length ≠ s.cfg.srcCap →
      exec .srcpush s = .next (okReport { s with src := s.src ++ [s.a0] } (BitVec.ofNat 32 (s.src.length + 1))))

/-- R173: SRCTERM appends the terminator exactly when the stream does not end with it, or raises CapacityError(2) when there is
no room for it. -/
def Obligations.SrctermAppendsTheTerminator : Prop :=
  ∀ s : State,
    ((∃ front, s.src = front ++ [s.term]) → exec .srcterm s = .next (okReport s 0)) ∧
    ((¬ ∃ front, s.src = front ++ [s.term]) → s.src.length = s.cfg.srcCap →
      exec .srcterm s = .next (faultReport s 17 2)) ∧
    ((¬ ∃ front, s.src = front ++ [s.term]) → s.src.length ≠ s.cfg.srcCap →
      exec .srcterm s = .next (okReport { s with src := s.src ++ [s.term] } 1))

/-- R173 (c): "Running SRCTERM twice appends at most once": after a SRCTERM that did not fault a second one answers 0 and changes
nothing but the report. -/
def Obligations.SrctermTwiceAppendsAtMostOnce : Prop :=
  ∀ s t : State, exec .srcterm s = .next t → t.err = false → exec .srcterm t = .next (okReport t 0)

/-- R172: SRCREAD returns one symbol of the source stream; beyond its length it faults; the stream is unchanged. -/
def Obligations.SrcreadReturnsTheSymbol : Prop :=
  decodeWord 0x00000023 = .ok .srcread ∧ ∀ s : State,
    (s.src.length ≤ s.a0.toNat → exec .srcread s = .next (faultReport s 3 s.a0)) ∧
    (∀ sym : Symbol, s.src[s.a0.toNat]? = some sym → exec .srcread s = .next (okReport s sym))

/-- R174: DSTREAD returns one decoded symbol; beyond the length it faults; the stream is unchanged. -/
def Obligations.DstreadReturnsTheSymbol : Prop :=
  ∀ s : State,
    (s.dst.length ≤ s.a0.toNat → exec .dstread s = .next (faultReport s 3 s.a0)) ∧
    (∀ sym : Symbol, s.dst[s.a0.toNat]? = some sym → exec .dstread s = .next (okReport s sym))

/-! ### Encoder -/

/-- R186: ENCSIZE returns the sum of the code lengths of the stream, or UnknownSymbolError with the index of the first symbol
that has no entry; nothing but the report changes. -/
def Obligations.EncsizeSumsTheCodeLengths : Prop :=
  ∀ s : State,
    (∀ front sym rest, s.src = front ++ sym :: rest → AllCoded s.ct front → readEntry s.ct sym.toNat = [] →
      exec .encsize s = .next (faultReport s 4 (BitVec.ofNat 32 front.length))) ∧
    (AllCoded s.ct s.src →
      exec .encsize s =
        .next (okReport s (BitVec.ofNat 32 ((s.src.map (fun sym => (readEntry s.ct sym.toNat).length)).sum))))

/-- R187, R188: ENCODE leaves in the buffer exactly the concatenation of the stream's codes and returns its length; an unknown
symbol, then a message longer than BB_CAP, fault and leave the old buffer. -/
def Obligations.EncodeLeavesTheConcatenatedCodes : Prop :=
  ∀ s : State,
    (∀ front sym rest, s.src = front ++ sym :: rest → AllCoded s.ct front → readEntry s.ct sym.toNat = [] →
      exec .encode s = .next (faultReport s 4 (BitVec.ofNat 32 front.length))) ∧
    (AllCoded s.ct s.src → s.cfg.bbCap < (message s.ct s.src).length → exec .encode s = .next (faultReport s 17 1)) ∧
    (AllCoded s.ct s.src → (message s.ct s.src).length ≤ s.cfg.bbCap →
      exec .encode s = .next
        (okReport { s with bb := message s.ct s.src } (BitVec.ofNat 32 (message s.ct s.src).length)))

/-- R5, R8, R186: in every legal state the total of the encoder's sizing pass fits the 32-bit `RESULT`: it does not wrap. -/
def Obligations.EncodedSizeFitsTheResultRegister : Prop :=
  ∀ s : State, s.Inv → (message s.ct s.src).length ≤ s.cfg.srcCap * s.cfg.maxlen ∧ (message s.ct s.src).length < 2 ^ 32

/-! ### Decoder -/

/-- R201: TRIECLEAR leaves the root alone; table, buffer and streams are untouched. -/
def Obligations.TrieclearLeavesTheRootAlone : Prop :=
  ∀ s : State, exec .trieclear s = .next (okReport { s with trie := [⟨none, none, none⟩] } 0)

/-- R203, R142: TRIEADD's operand checks in their order: symbol, length above MAXLEN, code bits, length 0; each changes only the report. -/
def Obligations.TrieaddChecksItsOperandsInOrder : Prop :=
  ∀ s : State,
    (s.cfg.nsym ≤ s.a0.toNat → exec .trieadd s = .next (faultReport s 19 0)) ∧
    (s.a0.toNat < s.cfg.nsym → s.cfg.maxlen < s.a1.toNat → exec .trieadd s = .next (faultReport s 19 1)) ∧
    (s.a0.toNat < s.cfg.nsym → s.a1.toNat ≤ s.cfg.maxlen → 2 ^ s.a1.toNat ≤ operandValue s →
      exec .trieadd s = .next (faultReport s 19 2)) ∧
    (s.a0.toNat < s.cfg.nsym → s.a1.toNat = 0 → operandValue s = 0 → exec .trieadd s = .next (faultReport s 19 1))

/-- R202, R203: over a legal trie, a code comparable with no stored code and with room for its missing nodes is added: exactly
that leaf, exactly those nodes, the result the new `NODES`; the same code for the same symbol again changes nothing. -/
def Obligations.TrieaddAddsExactlyOneLeaf : Prop :=
  ∀ (s : State) (b : Code), TrieInv s.cfg s.trie → s.a0.toNat < s.cfg.nsym → b.length ≤ s.cfg.maxlen → b ≠ [] →
    s.a1.toNat = b.length → operandValue s = codeValue b →
    (leafAt s.trie b = some s.a0 → exec .trieadd s = .next (okReport s (BitVec.ofNat 32 s.trie.length))) ∧
    ((∀ q x, leafAt s.trie q = some x → ¬ comparable q b) → s.trie.length + missingNodes s.trie 0 b ≤ s.cfg.nodeCap →
      ∃ t : Trie, exec .trieadd s = .next (okReport { s with trie := t } (BitVec.ofNat 32 t.length)) ∧
        t.length = s.trie.length + missingNodes s.trie 0 b ∧
        ∀ q, leafAt t q = if q = b then some s.a0 else leafAt s.trie q)

/-- R202, R203, R264: over a legal trie, a code comparable with a stored code (but for the same pair again) raises
ConflictingCodeError with the symbol, whatever room there is; with no conflict, too little room raises CapacityError(4);
either way no half path is left. -/
def Obligations.TrieaddFaultsLeaveTheTrie : Prop :=
  ∀ (s : State) (b : Code), TrieInv s.cfg s.trie → s.a0.toNat < s.cfg.nsym → b.length ≤ s.cfg.maxlen → b ≠ [] →
    s.a1.toNat = b.length → operandValue s = codeValue b →
    (∀ q x, leafAt s.trie q = some x → comparable q b → ¬ (q = b ∧ x = s.a0) →
      exec .trieadd s = .next (faultReport s 5 s.a0)) ∧
    ((∀ q x, leafAt s.trie q = some x → ¬ comparable q b) → s.cfg.nodeCap < s.trie.length + missingNodes s.trie 0 b →
      exec .trieadd s = .next (faultReport s 17 4))

/-- R204, R77: a prefix-free table whose trie fits NODE_CAP is built whatever trie was there before: the new trie holds exactly
the table's codes and nodes, and the result is the number of entries. -/
def Obligations.TriebuildHoldsExactlyTheTable : Prop :=
  ∀ s : State, s.cfg.Valid → PrefixFreeBelow s.ct s.cfg.nsym →
    trieSize (codesOf s.ct (List.range s.cfg.nsym)) ≤ s.cfg.nodeCap →
    ∃ t : Trie,
      exec .triebuild s =
        .next (okReport { s with trie := t } (BitVec.ofNat 32 (codesOf s.ct (List.range s.cfg.nsym)).length)) ∧
      t.length = trieSize (codesOf s.ct (List.range s.cfg.nsym)) ∧
      ∀ (q : Code) (sym : Symbol),
        leafAt t q = some sym ↔ q ≠ [] ∧ sym.toNat < s.cfg.nsym ∧ readEntry s.ct sym.toNat = q

/-- R204, R266, R264: TRIEBUILD inserts in ascending order: a symbol whose code is comparable with the code of a lower one, the
first such, is named by ConflictingCodeError; the first symbol whose code overflows NODE_CAP raises CapacityError(4);
either fault leaves the root alone. -/
def Obligations.TriebuildFaultsAtTheFirstFailingSymbol : Prop :=
  ∀ (s : State) (m : Nat), s.cfg.Valid → m < s.cfg.nsym → readEntry s.ct m ≠ [] → PrefixFreeBelow s.ct m →
    trieSize (codesOf s.ct (List.range m)) ≤ s.cfg.nodeCap →
    ((∃ a < m, readEntry s.ct a ≠ [] ∧ comparable (readEntry s.ct a) (readEntry s.ct m)) →
      exec .triebuild s = .next (faultReport { s with trie := [⟨none, none, none⟩] } 5 (BitVec.ofNat 32 m))) ∧
    (PrefixFreeBelow s.ct (m + 1) → s.cfg.nodeCap < trieSize (codesOf s.ct (List.range (m + 1))) →
      exec .triebuild s = .next (faultReport { s with trie := [⟨none, none, none⟩] } 17 4))

/-- R205: over a legal trie, DECODE emits the symbols of the stored codes the buffer starts with, and ends by what follows them:
nothing, a code cut short (MalformedStreamError at its first bit), a bit with no child (MissingChild at that bit), or one
symbol too many (CapacityError(3)); after a fault `DSTLEN` is 0. -/
def Obligations.DecodeWalksTheTrie : Prop :=
  ∀ (s : State) (pairs : List (Code × Symbol)), TrieInv s.cfg s.trie →
    (∀ e ∈ pairs, leafAt s.trie e.1 = some e.2) → pairs.length ≤ s.cfg.dstCap →
    (s.bb = pairs.flatMap (·.1) →
      exec .decode s = .next (okReport { s with dst := pairs.map (·.2) } (BitVec.ofNat 32 pairs.length))) ∧
    (∀ tail n, s.bb = pairs.flatMap (·.1) ++ tail → tail ≠ [] → followPath s.trie 0 tail = some n → (nodeAt s.trie n).leaf = none →
      exec .decode s = .next (faultReport { s with dst := [] } 6 (BitVec.ofNat 32 (pairs.flatMap (·.1)).length))) ∧
    (∀ tail bit rest n, s.bb = pairs.flatMap (·.1) ++ tail ++ bit :: rest → followPath s.trie 0 tail = some n →
      (nodeAt s.trie n).leaf = none → childOf (nodeAt s.trie n) bit = none →
      exec .decode s =
        .next (faultReport { s with dst := [] } 18 (BitVec.ofNat 32 ((pairs.flatMap (·.1)).length + tail.length)))) ∧
    (∀ code sym rest, s.bb = pairs.flatMap (·.1) ++ code ++ rest → leafAt s.trie code = some sym →
      pairs.length = s.cfg.dstCap → exec .decode s = .next (faultReport { s with dst := [] } 17 3))

/-- R207, which the spec marks as its own inference: the round trip: with a prefix-free table that has an entry for every symbol of `SRC`, a message that fits BB_CAP, a trie
that fits NODE_CAP and SRCLEN ≤ DST_CAP, ENCODE, TRIEBUILD, DECODE (or TRIEBUILD first) leave `DST` equal to `SRC`. -/
def Obligations.RoundTripGivesTheStreamBack : Prop :=
  ∀ s : State, s.cfg.Valid → PrefixFreeBelow s.ct s.cfg.nsym → (∀ sym ∈ s.src, sym.toNat < s.cfg.nsym) →
    AllCoded s.ct s.src → (message s.ct s.src).length ≤ s.cfg.bbCap →
    trieSize (codesOf s.ct (List.range s.cfg.nsym)) ≤ s.cfg.nodeCap → s.src.length ≤ s.cfg.dstCap →
    (∃ t u v : State, exec .encode s = .next t ∧ exec .triebuild t = .next u ∧ exec .decode u = .next v ∧
      v.err = false ∧ v.dst.length = s.src.length ∧ ∀ i : Nat, v.dst[i]? = s.src[i]?) ∧
    (∃ t u v : State, exec .triebuild s = .next t ∧ exec .encode t = .next u ∧ exec .decode u = .next v ∧
      v.err = false ∧ v.dst.length = s.src.length ∧ ∀ i : Nat, v.dst[i]? = s.src[i]?)

/-! ### The whole machine -/

/-- R312: every command, in every state, ends with a next state: it neither hangs nor stops. -/
def Obligations.EveryCommandCompletes : Prop :=
  ∀ (i : Instr) (s : State), ∃ t : State, exec i s = .next t

/-- R22, R23, R27, R28, R34: the frame of the registers, for every instruction of the table: only RESET changes `A0`, `A1` and
`TERM`, only RESET and CTREAD change `C`, and no command changes the parameters (R34); that no command, RESET included, changes the
queue at the port or the replies is the model's choice (assumptions 1, 2 and 12). -/
def Obligations.CommandsKeepTheOperandRegisters : Prop :=
  ∀ (i : Instr) (s t : State), exec i s = .next t →
    (i ≠ .reset → t.a0 = s.a0 ∧ t.a1 = s.a1 ∧ t.term = s.term) ∧
    (i ≠ .reset → i ≠ .ctread → t.c = s.c) ∧
    t.cfg = s.cfg ∧ t.port = s.port ∧ t.replies = s.replies

/-- R40, column "Commands that write": the frame of the memories: every memory is unchanged by every command not listed for it. -/
def Obligations.MemoriesChangeOnlyByTheirCommands : Prop :=
  ∀ (i : Instr) (s t : State), exec i s = .next t →
    (i ∉ ([.ctwrite, .reset] : List Instr) → t.ct = s.ct) ∧
    (i ∉ ([.bbcreate, .bbset, .bbclear, .bbwrbyte, .encode, .reset] : List Instr) → t.bb = s.bb) ∧
    (i ∉ ([.srcclear, .srcpush, .srcterm, .reset] : List Instr) → t.src = s.src) ∧
    (i ∉ ([.decode, .reset] : List Instr) → t.dst = s.dst) ∧
    (i ∉ ([.trieclear, .trieadd, .triebuild, .reset] : List Instr) → t.trie = s.trie)

/-- R264: a command that faults changes no state but the four report registers, except that DECODE leaves `DST` empty and TRIEBUILD
leaves the root alone. -/
def Obligations.FaultsChangeOnlyTheReport : Prop :=
  ∀ (i : Instr) (s t : State), exec i s = .next t → t.err = true →
    t = { s with
      result := 0, cause := t.cause, info := t.info, err := true,
      dst := if i = .decode then [] else s.dst,
      trie := if i = .triebuild then [⟨none, none, none⟩] else s.trie }

/-- R265 (the spec's own inference, "every command is a function of the state"): a faulted command repeated faults again in the same way: the state after it is the same. -/
def Obligations.RepeatedFaultIsTheSameFault : Prop :=
  ∀ (i : Instr) (s t : State), exec i s = .next t → t.err = true → exec i t = .next t

/-- R37: no command reads the report: states that differ only in `STATUS`, `CAUSE`, `INFO` and `RESULT` have the same next state,
so every command also writes all four. -/
def Obligations.NoCommandReadsTheReport : Prop :=
  ∀ (i : Instr) (s : State) (result info : Word) (cause : BitVec 5) (err : Bool),
    exec i { s with result := result, cause := cause, info := info, err := err } = exec i s

/-- R25, R26, R24: after every command `STATUS.ERR` is 1 exactly when `CAUSE` is not 0; with no fault `INFO` is 0, with one `RESULT` is 0. -/
def Obligations.ReportRegistersAgree : Prop :=
  ∀ (i : Instr) (s t : State), exec i s = .next t →
    (t.err = true ↔ t.cause ≠ 0) ∧ (t.cause = 0 → t.info = 0) ∧ (t.cause ≠ 0 → t.result = 0)

/-- R261, columns "Code" and "Raised by", with the details of R262: each cause comes only from the commands listed for it, and
`INFO` names the operand, the memory or the register that R262 gives. -/
def Obligations.EachCauseComesOnlyFromItsCommands : Prop :=
  ∀ (i : Instr) (s t : State), exec i s = .next t →
    t.cause = 0 ∨
    (t.cause = 2 ∧ i = .bbcreate ∧ t.info = s.a0) ∨
    (t.cause = 3 ∧ i ∈ ([.bbget, .bbset, .bbclear, .bbrdbyte, .bbwrbyte, .srcread, .dstread] : List Instr) ∧ t.info = s.a0) ∨
    (t.cause = 4 ∧ i ∈ ([.encsize, .encode] : List Instr)) ∨
    (t.cause = 5 ∧ (i = .trieadd ∧ t.info = s.a0 ∨ i = .triebuild)) ∨
    (t.cause = 6 ∧ i = .decode) ∨
    (t.cause = 17 ∧ (i ∈ ([.bbcreate, .encode] : List Instr) ∧ t.info = 1 ∨ i ∈ ([.srcpush, .srcterm] : List Instr) ∧ t.info = 2 ∨
      i = .decode ∧ t.info = 3 ∨ i ∈ ([.trieadd, .triebuild] : List Instr) ∧ t.info = 4)) ∨
    (t.cause = 18 ∧ i = .decode) ∨
    (t.cause = 19 ∧ (i ∈ ([.ctwrite, .ctread, .trieadd, .srcpush] : List Instr) ∧ t.info = 0 ∨
      i ∈ ([.ctwrite, .trieadd, .bbwrbyte] : List Instr) ∧ t.info = 1 ∨ i ∈ ([.ctwrite, .trieadd] : List Instr) ∧ t.info = 2))

/-- R274: no command raises EmptyStreamError; ENCSIZE, ENCODE and DECODE on empty inputs succeed. -/
def Obligations.EmptyStreamErrorIsNeverRaised : Prop :=
  (∀ (i : Instr) (s t : State), exec i s = .next t → t.cause ≠ 1) ∧
  (∀ s : State, s.src = [] → exec .encsize s = .next (okReport s 0) ∧ exec .encode s = .next (okReport { s with bb := [] } 0)) ∧
  (∀ s : State, s.bb = [] → exec .decode s = .next (okReport { s with dst := [] } 0))

/-- R5, R24 to R48: the invariant holds after reset, in every configuration of the hardware. -/
def Obligations.InvariantHoldsAfterReset : Prop :=
  (∀ cfg : Config, cfg.Valid → (State.resetOf cfg).Inv) ∧ State.reset.Inv

/-- Every step of the machine keeps the invariant: register widths and ranges (R21, R25, R26, R28), the canonical code table (R41), the
capacities (R29 to R32), symbols in range (R9) and the trie invariants (R47), from every state that meets it. -/
def Obligations.InvariantIsKeptByEveryStep : Prop :=
  ∀ s t : State, s.Inv → step s = .next t → t.Inv

/-- R47 (a), (f), which the spec marks as its own inference: over a legal trie every node is reached by exactly one path from the root, and no leaf's path is a proper prefix
of another's. -/
def Obligations.TrieIsATreeWithPrefixFreeLeaves : Prop :=
  ∀ (cfg : Config) (t : Trie), TrieInv cfg t →
    (∀ k < t.length, ∃ p : Code, followPath t 0 p = some k ∧ ∀ q : Code, followPath t 0 q = some k → q = p) ∧
    (∀ (p q : Code) (x y : Symbol), leafAt t p = some x → leafAt t q = some y → p <+: q → p = q)

/-! ### Host side -/

/-- R100, R140: the transactions of the statement `CTWRITE s, "bits"`, run by the machine one step each from any legal state, leave
exactly that entry in the table and no fault. -/
def Obligations.CtwriteStatementStoresItsCode : Prop :=
  ∀ (s : State) (sym : Symbol) (bits : Code), s.Inv → sym.toNat < s.cfg.nsym → bits.length ≤ s.cfg.maxlen →
    s.port = expandStatement s.cfg (.withCode .ctwrite sym bits) →
    ∃ t : State, Host.Core.run core s.port.length s = .next t ∧ t.port = [] ∧ t.err = false ∧
      readEntry t.ct sym.toNat = bits ∧ ∀ k, k ≠ sym.toNat → readEntry t.ct k = readEntry s.ct k

/-- R101: the macro `LOADBITS`, issued from any legal state, leaves exactly its bits in the buffer and no fault. -/
def Obligations.LoadbitsMacroLeavesItsBits : Prop :=
  ∀ (s : State) (bits : Code), s.Inv → bits.length ≤ s.cfg.bbCap →
    ∃ t : State, issueMacro s (expandPseudo (.loadBits bits)) = .next t ∧ t.err = false ∧ t.bb = bits ∧
      t.ct = s.ct ∧ t.src = s.src ∧ t.dst = s.dst ∧ t.trie = s.trie

/-- R242: every table the host's CodeBuilder makes is prefix-free. -/
def Obligations.BuiltTablesArePrefixFree : Prop :=
  ∀ (stream : List Symbol) (table : FreqTable), analyze stream = .ok table →
    ∀ e ∈ buildTable table, ∀ f ∈ buildTable table, e.1 ≠ f.1 → ¬ comparable e.2 f.2

/-- R234, R236: a built code has at least one bit and, for an alphabet of k ≥ 2 symbols, at most k - 1; the table lists every symbol of the
stream exactly once. -/
def Obligations.BuiltCodesAreShort : Prop :=
  ∀ (stream : List Symbol) (table : FreqTable), analyze stream = .ok table →
    (∀ e ∈ buildTable table, 1 ≤ e.2.length ∧ (2 ≤ table.length → e.2.length ≤ table.length - 1)) ∧
    ((buildTable table).map (·.1)).Nodup ∧ ∀ sym, sym ∈ stream ↔ sym ∈ (buildTable table).map (·.1)

/-- R242: a built table of two or more symbols is complete: its Kraft sum is exactly 1, here multiplied by 2^k for k symbols. -/
def Obligations.BuiltTablesAreComplete : Prop :=
  ∀ (stream : List Symbol) (table : FreqTable), analyze stream = .ok table → 2 ≤ table.length →
    ((buildTable table).map (fun e => 2 ^ (table.length - e.2.length))).sum = 2 ^ table.length
end

