-- ==== Sys2Proof/Laws/State.lean ====
section
/-! SUPPORT. Laws/State.lean: what each named update of the state leaves in each field, by rfl. -/

namespace Sys2Proof.Machine

@[simp] theorem finish_cfg (s : State) (v : Word) : (finish s v).cfg = s.cfg := rfl
@[simp] theorem finish_a0 (s : State) (v : Word) : (finish s v).a0 = s.a0 := rfl
@[simp] theorem finish_a1 (s : State) (v : Word) : (finish s v).a1 = s.a1 := rfl
@[simp] theorem finish_c (s : State) (v : Word) : (finish s v).c = s.c := rfl
@[simp] theorem finish_term (s : State) (v : Word) : (finish s v).term = s.term := rfl
@[simp] theorem finish_result (s : State) (v : Word) : (finish s v).result = v := rfl
@[simp] theorem finish_cause (s : State) (v : Word) : (finish s v).cause = 0 := rfl
@[simp] theorem finish_info (s : State) (v : Word) : (finish s v).info = 0 := rfl
@[simp] theorem finish_err (s : State) (v : Word) : (finish s v).err = false := rfl
@[simp] theorem finish_ct (s : State) (v : Word) : (finish s v).ct = s.ct := rfl
@[simp] theorem finish_bb (s : State) (v : Word) : (finish s v).bb = s.bb := rfl
@[simp] theorem finish_src (s : State) (v : Word) : (finish s v).src = s.src := rfl
@[simp] theorem finish_dst (s : State) (v : Word) : (finish s v).dst = s.dst := rfl
@[simp] theorem finish_trie (s : State) (v : Word) : (finish s v).trie = s.trie := rfl
@[simp] theorem finish_port (s : State) (v : Word) : (finish s v).port = s.port := rfl
@[simp] theorem finish_replies (s : State) (v : Word) : (finish s v).replies = s.replies := rfl

@[simp] theorem raise_cfg (s : State) (f : Raised) : (raise s f).cfg = s.cfg := rfl
@[simp] theorem raise_a0 (s : State) (f : Raised) : (raise s f).a0 = s.a0 := rfl
@[simp] theorem raise_a1 (s : State) (f : Raised) : (raise s f).a1 = s.a1 := rfl
@[simp] theorem raise_c (s : State) (f : Raised) : (raise s f).c = s.c := rfl
@[simp] theorem raise_term (s : State) (f : Raised) : (raise s f).term = s.term := rfl
@[simp] theorem raise_result (s : State) (f : Raised) : (raise s f).result = 0 := rfl
@[simp] theorem raise_cause (s : State) (f : Raised) : (raise s f).cause = f.cause.code := rfl
@[simp] theorem raise_info (s : State) (f : Raised) : (raise s f).info = f.info := rfl
@[simp] theorem raise_err (s : State) (f : Raised) : (raise s f).err = true := rfl
@[simp] theorem raise_ct (s : State) (f : Raised) : (raise s f).ct = s.ct := rfl
@[simp] theorem raise_bb (s : State) (f : Raised) : (raise s f).bb = s.bb := rfl
@[simp] theorem raise_src (s : State) (f : Raised) : (raise s f).src = s.src := rfl
@[simp] theorem raise_dst (s : State) (f : Raised) : (raise s f).dst = s.dst := rfl
@[simp] theorem raise_trie (s : State) (f : Raised) : (raise s f).trie = s.trie := rfl
@[simp] theorem raise_port (s : State) (f : Raised) : (raise s f).port = s.port := rfl
@[simp] theorem raise_replies (s : State) (f : Raised) : (raise s f).replies = s.replies := rfl

@[simp] theorem resetBlock_cfg (s : State) : (resetBlock s).cfg = s.cfg := rfl
@[simp] theorem resetBlock_a0 (s : State) : (resetBlock s).a0 = 0 := rfl
@[simp] theorem resetBlock_a1 (s : State) : (resetBlock s).a1 = 0 := rfl
@[simp] theorem resetBlock_c (s : State) : (resetBlock s).c = List.replicate s.cfg.cw 0 := rfl
@[simp] theorem resetBlock_term (s : State) : (resetBlock s).term = 0 := rfl
@[simp] theorem resetBlock_result (s : State) : (resetBlock s).result = 0 := rfl
@[simp] theorem resetBlock_cause (s : State) : (resetBlock s).cause = 0 := rfl
@[simp] theorem resetBlock_info (s : State) : (resetBlock s).info = 0 := rfl
@[simp] theorem resetBlock_err (s : State) : (resetBlock s).err = false := rfl
@[simp] theorem resetBlock_ct (s : State) : (resetBlock s).ct = [] := rfl
@[simp] theorem resetBlock_bb (s : State) : (resetBlock s).bb = [] := rfl
@[simp] theorem resetBlock_src (s : State) : (resetBlock s).src = [] := rfl
@[simp] theorem resetBlock_dst (s : State) : (resetBlock s).dst = [] := rfl
@[simp] theorem resetBlock_trie (s : State) : (resetBlock s).trie = rootAlone := rfl
@[simp] theorem resetBlock_port (s : State) : (resetBlock s).port = s.port := rfl
@[simp] theorem resetBlock_replies (s : State) : (resetBlock s).replies = s.replies := rfl

@[simp] theorem resetOf_cfg (cfg : Config) : (State.resetOf cfg).cfg = cfg := rfl
@[simp] theorem resetOf_a0 (cfg : Config) : (State.resetOf cfg).a0 = 0 := rfl
@[simp] theorem resetOf_a1 (cfg : Config) : (State.resetOf cfg).a1 = 0 := rfl
@[simp] theorem resetOf_c (cfg : Config) : (State.resetOf cfg).c = List.replicate cfg.cw 0 := rfl
@[simp] theorem resetOf_term (cfg : Config) : (State.resetOf cfg).term = 0 := rfl
@[simp] theorem resetOf_result (cfg : Config) : (State.resetOf cfg).result = 0 := rfl
@[simp] theorem resetOf_cause (cfg : Config) : (State.resetOf cfg).cause = 0 := rfl
@[simp] theorem resetOf_info (cfg : Config) : (State.resetOf cfg).info = 0 := rfl
@[simp] theorem resetOf_err (cfg : Config) : (State.resetOf cfg).err = false := rfl
@[simp] theorem resetOf_ct (cfg : Config) : (State.resetOf cfg).ct = [] := rfl
@[simp] theorem resetOf_bb (cfg : Config) : (State.resetOf cfg).bb = [] := rfl
@[simp] theorem resetOf_src (cfg : Config) : (State.resetOf cfg).src = [] := rfl
@[simp] theorem resetOf_dst (cfg : Config) : (State.resetOf cfg).dst = [] := rfl
@[simp] theorem resetOf_trie (cfg : Config) : (State.resetOf cfg).trie = rootAlone := rfl
@[simp] theorem resetOf_port (cfg : Config) : (State.resetOf cfg).port = [] := rfl
@[simp] theorem resetOf_replies (cfg : Config) : (State.resetOf cfg).replies = [] := rfl

end Sys2Proof.Machine
end

