-- ==== Sys2Proof/Laws/Operands.lean ====
section
/-! SUPPORT. Laws/Operands.lean: what each operand kind can answer, how a command ends, and the carrier of a code (R27). -/

namespace Sys2Proof.Machine

@[simp] theorem bind_ok {α β : Type} (a : α) (f : α → Except Raised β) : (Except.ok a >>= f) = f a := rfl

@[simp] theorem bind_error {α β : Type} (e : Raised) (f : α → Except Raised β) :
    ((Except.error e : Except Raised α) >>= f) = .error e := rfl

@[simp] theorem raiseIf_pos {c : Prop} [Decidable c] (h : c) (f : Raised) : raiseIf c f = .error f := if_pos h

@[simp] theorem raiseIf_neg {c : Prop} [Decidable c] (h : ¬c) (f : Raised) : raiseIf c f = .ok () := if_neg h

@[simp] theorem commit_ok (s t : State) (v : Word) : commit s (.ok (t, v)) = .next (finish t v) := rfl

@[simp] theorem commit_error (s : State) (f : Raised) : commit s (.error f) = .next (raise s f) := rfl

/-- Every command ends with a next state (R263, R312). -/
theorem commit_next (s : State) (r : Except Raised (State × Word)) : ∃ t, commit s r = .next t := by
  rcases r with f | ⟨t, v⟩
  · exact ⟨raise s f, rfl⟩
  · exact ⟨finish t v, rfl⟩

/-- How a committed command can have ended: by `ok` with its state and value, or by a raise over the base state. -/
theorem commit_cases {s t : State} {r : Except Raised (State × Word)} (h : commit s r = .next t) :
    (∃ u v, r = .ok (u, v) ∧ t = finish u v) ∨ ∃ f, r = .error f ∧ t = raise s f := by
  rcases r with f | ⟨u, v⟩
  · right; refine ⟨f, rfl, ?_⟩; simpa using h.symm
  · left; refine ⟨u, v, rfl, ?_⟩; simpa using h.symm

theorem raiseIf_eq_ok {c : Prop} [Decidable c] {f : Raised} {u : Unit} : raiseIf c f = .ok u ↔ ¬c := by
  unfold raiseIf; split <;> simp [*]

theorem raiseIf_eq_error {c : Prop} [Decidable c] {f g : Raised} : raiseIf c f = .error g ↔ c ∧ f = g := by
  unfold raiseIf; split <;> simp [*]

/-- A bind answers `ok` exactly when both halves do. -/
theorem bind_eq_ok {α β : Type} {x : Except Raised α} {f : α → Except Raised β} {b : β} :
    (x >>= f) = .ok b ↔ ∃ a, x = .ok a ∧ f a = .ok b := by
  cases x <;> simp

theorem symbolOperand_eq (s : State) :
    symbolOperand s = if s.cfg.nsym ≤ s.a0.toNat then .error (.badOperand .a0) else .ok s.a0 := by
  unfold symbolOperand raiseIf; split <;> rfl

theorem indexOperand_eq (s : State) (n : Nat) :
    indexOperand s n = if n ≤ s.a0.toNat then .error (.indexOutOfRange s.a0) else .ok s.a0.toNat := by
  unfold indexOperand raiseIf; split <;> rfl

theorem byteIndexOperand_eq (s : State) :
    byteIndexOperand s = if s.bb.length ≤ 8 * s.a0.toNat then .error (.indexOutOfRange s.a0) else .ok s.a0.toNat := by
  unfold byteIndexOperand raiseIf; split <;> rfl

theorem byteOperand_eq (s : State) :
    byteOperand s = if 255 < s.a1.toNat then .error (.badOperand .a1) else .ok s.a1 := by
  unfold byteOperand raiseIf; split <;> rfl

theorem bufferLengthOperand_eq (s : State) :
    bufferLengthOperand s =
      if s.a0.toInt < 0 then .error (.invalidLength s.a0)
      else if s.a0.toInt > s.cfg.bbCap then .error (.capacity .bb) else .ok s.a0.toInt.toNat := by
  unfold bufferLengthOperand raiseIf; split
  · rfl
  · split <;> rfl

/-- R142 in one equation: the three checks in order, then the symbol and the code. -/
theorem codeOperand_eq (s : State) :
    codeOperand s =
      if s.cfg.nsym ≤ s.a0.toNat then .error (.badOperand .a0)
      else if s.cfg.maxlen < s.a1.toNat then .error (.badOperand .a1)
      else if 2 ^ s.a1.toNat ≤ carrierValue s.c then .error (.badOperand .c)
      else .ok (s.a0, codeOfValue s.a1.toNat (carrierValue s.c)) := by
  unfold codeOperand
  rw [symbolOperand_eq]
  split
  · rfl
  · unfold raiseIf; simp only [bind_ok, gt_iff_lt, ge_iff_le]; split
    · rfl
    · simp only [bind_ok]; split <;> rfl

@[simp] theorem codeOfValue_length (len v : Nat) : (codeOfValue len v).length = len := by simp [codeOfValue]

/-- Bit j of a code is bit L-1-j of its value (R27). -/
theorem codeOfValue_getElem? (len v j : Nat) (h : j < len) : (codeOfValue len v)[j]? = some (v.testBit (len - 1 - j)) := by
  simp [codeOfValue, h]

/-- A code's value fits its length (R27: "every bit of V at position L or above is 0"). -/
theorem valueOfCode_lt (b : Code) : valueOfCode b < 2 ^ b.length := by
  induction b with
  | nil => simp [valueOfCode]
  | cons x rest ih =>
    have : x.toNat ≤ 1 := by cases x <;> simp
    simp only [valueOfCode, List.length_cons, Nat.pow_succ]
    have : x.toNat * 2 ^ rest.length ≤ 1 * 2 ^ rest.length := Nat.mul_le_mul_right _ this
    omega

theorem codeOfValue_succ (len v : Nat) : codeOfValue (len + 1) v = v.testBit len :: codeOfValue len v := by
  simp only [codeOfValue, List.range_succ_eq_map, List.map_cons, List.map_map]
  refine List.cons_eq_cons.mpr ⟨by simp, ?_⟩
  apply List.map_congr_left
  intro j _
  simp only [Function.comp]
  congr 1
  omega

/-- The code of the value of a code, at its length, is the code (R27). -/
theorem codeOfValue_valueOfCode (b : Code) : codeOfValue b.length (valueOfCode b) = b := by
  induction b with
  | nil => rfl
  | cons x rest ih =>
    have hlt := valueOfCode_lt rest
    have hv : valueOfCode (x :: rest) = 2 ^ rest.length * x.toNat + valueOfCode rest := by
      simp [valueOfCode, Nat.mul_comm]
    rw [List.length_cons, codeOfValue_succ, hv]
    congr 1
    · rw [Nat.testBit_two_pow_mul_add _ hlt]
      cases x <;> simp
    · conv_rhs => rw [← ih]
      unfold codeOfValue
      apply List.map_congr_left
      intro j hj
      have hj := List.mem_range.mp hj
      rw [Nat.testBit_two_pow_mul_add _ hlt, if_pos (by omega)]

/-- The value of the code of a value that fits the length is the value (R27). -/
theorem valueOfCode_codeOfValue (len v : Nat) (h : v < 2 ^ len) : valueOfCode (codeOfValue len v) = v := by
  induction len generalizing v with
  | zero => simp at h; subst h; rfl
  | succ n ih =>
    have hmod : codeOfValue n v = codeOfValue n (v % 2 ^ n) := by
      unfold codeOfValue
      apply List.map_congr_left
      intro j hj
      have hj := List.mem_range.mp hj
      rw [Nat.testBit_mod_two_pow]
      simp [show n - 1 - j < n by omega]
    rw [codeOfValue_succ, valueOfCode, hmod, ih _ (Nat.mod_lt _ (by positivity)), codeOfValue_length]
    have hd : v / 2 ^ n < 2 := by rw [Nat.div_lt_iff_lt_mul (by positivity), Nat.mul_comm, ← Nat.pow_succ]; exact h
    have ht : (v.testBit n).toNat = v / 2 ^ n := by
      rw [Nat.testBit_eq_decide_div_mod_eq, Nat.mod_eq_of_lt hd]
      generalize v / 2 ^ n = q at hd
      interval_cases q <;> rfl
    rw [ht, Nat.mul_comm]
    exact Nat.div_add_mod v (2 ^ n)

@[simp] theorem carrierOfValue_length (cw v : Nat) : (carrierOfValue cw v).length = cw := by simp [carrierOfValue]

theorem carrierOfValue_succ (cw v : Nat) :
    carrierOfValue (cw + 1) v = BitVec.ofNat 32 v :: carrierOfValue cw (v / 2 ^ 32) := by
  simp only [carrierOfValue, List.range_succ_eq_map, List.map_cons, List.map_map]
  refine List.cons_eq_cons.mpr ⟨by simp, ?_⟩
  apply List.map_congr_left
  intro k _
  simp only [Function.comp, Nat.div_div_eq_div_mul, ← Nat.pow_add]
  congr 3
  omega

theorem carrierValue_lt (c : List Word) : carrierValue c < 2 ^ (32 * c.length) := by
  induction c with
  | nil => simp [carrierValue]
  | cons w rest ih =>
    have hw := w.isLt
    simp only [carrierValue, List.length_cons, Nat.mul_add, Nat.pow_add, Nat.mul_one]
    rw [Nat.mul_comm (2 ^ (32 * rest.length))]
    have : 2 ^ 32 * (carrierValue rest + 1) ≤ 2 ^ 32 * 2 ^ (32 * rest.length) := Nat.mul_le_mul_left _ ih
    omega

/-- The registers carry every value that fits them (R27). -/
theorem carrierValue_carrierOfValue (cw v : Nat) (h : v < 2 ^ (32 * cw)) : carrierValue (carrierOfValue cw v) = v := by
  induction cw generalizing v with
  | zero => simp at h; subst h; rfl
  | succ n ih =>
    rw [carrierOfValue_succ, carrierValue, ih]
    · simp only [BitVec.toNat_ofNat]; omega
    · rw [Nat.div_lt_iff_lt_mul (by positivity), ← Nat.pow_add]
      exact lt_of_lt_of_eq h (by congr 1)

/-- The registers are determined by the value they carry. -/
theorem carrierOfValue_carrierValue (c : List Word) : carrierOfValue c.length (carrierValue c) = c := by
  induction c with
  | nil => rfl
  | cons w rest ih =>
    have hw := w.isLt
    rw [List.length_cons, carrierOfValue_succ, carrierValue]
    congr 1
    · apply BitVec.eq_of_toNat_eq; simp; omega
    · rw [show (w.toNat + 2 ^ 32 * carrierValue rest) / 2 ^ 32 = carrierValue rest by omega, ih]

end Sys2Proof.Machine
end

