-- ==== Sys2Proof/Laws/Buffer.lean ====
section
/-! SUPPORT. Laws/Buffer.lean: the BitBuffer's read after write, and the byte view of R62 position by position. -/

namespace Sys2Proof.Machine

@[simp] theorem putBit_length (bb : List Bool) (p : Nat) (v : Bool) : (putBit bb p v).length = bb.length := by simp [putBit]

@[simp] theorem zeroBuffer_length (n : Nat) : (zeroBuffer n).length = n := by simp [zeroBuffer]

theorem putBit_getElem? (bb : List Bool) (p q : Nat) (v : Bool) (h : p < bb.length) :
    (putBit bb p v)[q]? = if q = p then some v else bb[q]? := by
  unfold putBit
  rw [List.getElem?_set]
  by_cases hq : q = p
  · subst hq; simp [h]
  · simp [hq, Ne.symm hq]

@[simp] theorem writeByte_length (bb : List Bool) (i : Nat) (v : Word) : (writeByte bb i v).length = bb.length := by simp [writeByte]

/-- R62, R156: position 8i + k takes bit 7 - k of the value; every other position keeps its bit. -/
theorem writeByte_getElem? (bb : List Bool) (i : Nat) (v : Word) (q : Nat) :
    (writeByte bb i v)[q]? =
      if q < bb.length ∧ 8 * i ≤ q ∧ q < 8 * i + 8 then some (v.getLsbD (7 - (q - 8 * i))) else bb[q]? := by
  simp only [writeByte, List.getElem?_mapIdx]
  by_cases hq : q < bb.length
  · simp only [List.getElem?_eq_getElem hq, Option.map_some]
    by_cases hi : q / 8 = i
    · rw [if_pos hi, if_pos (by omega), show q % 8 = q - 8 * i by omega]
    · rw [if_neg hi, if_neg (by omega)]
  · rw [if_neg (by omega)]
    simp [List.getElem?_eq_none (Nat.not_lt.mp hq)]

/-- The byte is the eight bits of R62, a position at or beyond the length counting 0. -/
theorem readByte_eq (bb : List Bool) (i : Nat) :
    readByte bb i = valueOfCode ((List.range 8).map (fun k => getBit bb (8 * i + k))) := rfl

theorem readByte_lt (bb : List Bool) (i : Nat) : readByte bb i < 256 := by
  rw [readByte_eq]
  exact Nat.lt_of_lt_of_eq (valueOfCode_lt _) (by simp)

/-- Bit 7 - k of the byte is the bit at position 8i + k (R62). -/
theorem readByte_testBit (bb : List Bool) (i k : Nat) (h : k < 8) :
    (readByte bb i).testBit (7 - k) = getBit bb (8 * i + k) := by
  have hc := codeOfValue_valueOfCode ((List.range 8).map (fun k => getBit bb (8 * i + k)))
  rw [← readByte_eq] at hc
  have := codeOfValue_getElem? 8 (readByte bb i) k h
  simp only [List.length_map, List.length_range] at hc
  rw [hc] at this
  simpa [h] using this.symm

end Sys2Proof.Machine
end

