-- ==== Sys2Proof/Laws/Trie.lean ====
section
/-! SUPPORT. Laws/Trie.lean: the node store as a tree of paths, and everything `Insert` can do to it (R47, R202). -/

namespace Sys2Proof.Machine

/-! ### Nodes and paths -/

theorem nodeAt_of_le {t : Trie} {k : Nat} (h : t.length ≤ k) : nodeAt t k = Node.empty := by
  simp [nodeAt, List.getElem?_eq_none h]

@[simp] theorem childOf_empty (b : Bool) : childOf Node.empty b = none := by cases b <;> rfl

@[simp] theorem leaf_empty : Node.empty.leaf = none := rfl

theorem childOf_withChild (n : Node) (b x : Bool) (k : Nat) :
    childOf (withChild n b k) x = if x = b then some k else childOf n x := by
  cases b <;> cases x <;> rfl

@[simp] theorem leaf_withChild (n : Node) (b : Bool) (k : Nat) : (withChild n b k).leaf = n.leaf := by cases b <;> rfl

@[simp] theorem growChild_length (t : Trie) (n : Nat) (b : Bool) : (growChild t n b).length = t.length + 1 := by
  simp [growChild]

/-- Allocating a node changes only the node it hangs under: the new node is empty, as everything outside the store reads. -/
theorem nodeAt_growChild {t : Trie} {n : Nat} (h : n < t.length) (b : Bool) (k : Nat) :
    nodeAt (growChild t n b) k = if k = n then withChild (nodeAt t n) b t.length else nodeAt t k := by
  unfold growChild nodeAt
  simp only [List.getD_eq_getElem?_getD, List.getElem?_set]
  by_cases hk : k = n
  · subst hk; simp [Nat.lt_succ_of_lt h]
  · simp only [hk, Ne.symm hk, if_false]
    rcases Nat.lt_trichotomy k t.length with h1 | h1 | h1
    · rw [List.getElem?_append_left h1]
    · subst h1; simp
    · rw [List.getElem?_eq_none (by simp; omega), List.getElem?_eq_none (by omega)]

theorem nodeAt_set {t : Trie} {n : Nat} (h : n < t.length) (x : Node) (k : Nat) :
    nodeAt (t.set n x) k = if k = n then x else nodeAt t k := by
  unfold nodeAt
  simp only [List.getD_eq_getElem?_getD, List.getElem?_set]
  by_cases hk : k = n
  · subst hk; simp [h]
  · simp [hk, Ne.symm hk]

@[simp] theorem followPath_nil (t : Trie) (n : Nat) : followPath t n [] = some n := rfl

theorem followPath_append (t : Trie) (n : Nat) (p q : Code) :
    followPath t n (p ++ q) = (followPath t n p).bind (fun k => followPath t k q) := by
  induction p generalizing n with
  | nil => rfl
  | cons b rest ih =>
    simp only [List.cons_append, followPath]
    cases childOf (nodeAt t n) b with
    | none => rfl
    | some k => exact ih k

theorem followPath_snoc (t : Trie) (n : Nat) (p : Code) (b : Bool) :
    followPath t n (p ++ [b]) = (followPath t n p).bind (fun k => childOf (nodeAt t k) b) := by
  rw [followPath_append]
  congr 1
  funext k
  simp only [followPath]
  cases childOf (nodeAt t k) b <;> rfl

theorem leafAt_eq_some {t : Trie} {p : Code} {sym : Symbol} :
    leafAt t p = some sym ↔ ∃ n, followPath t 0 p = some n ∧ (nodeAt t n).leaf = some sym := by
  unfold leafAt
  cases followPath t 0 p <;> simp

/-! ### The tree invariants, with one node that may still be bare -/

/-- The shape invariants of R47 without the bounds; node `m` alone may be a childless node that is not yet a leaf,
as the end of a path under construction is (R202). -/
structure TreeInv (t : Trie) (m : Nat) : Prop where
  nonempty : 1 ≤ t.length
  edge : ∀ n b k, childOf (nodeAt t n) b = some k → n < k ∧ k < t.length
  hasParent : ∀ k, 1 ≤ k → k < t.length → ∃ n b, childOf (nodeAt t n) b = some k
  oneParent : ∀ k n b n' b', childOf (nodeAt t n) b = some k → childOf (nodeAt t n') b' = some k → n = n' ∧ b = b'
  rootNoLeaf : (nodeAt t 0).leaf = none
  leafNoChild : ∀ n b, (nodeAt t n).leaf ≠ none → childOf (nodeAt t n) b = none
  barren : ∀ n, n ≠ 0 → n ≠ m → n < t.length → childOf (nodeAt t n) false = none → childOf (nodeAt t n) true = none →
    (nodeAt t n).leaf ≠ none

theorem TrieInv.tree {cfg : Config} {t : Trie} (h : TrieInv cfg t) (m : Nat) : TreeInv t m :=
  ⟨h.size.1, h.edge, h.hasParent, h.oneParent, h.rootNoLeaf, h.leafNoChild, fun n h0 _ => h.barrenIsLeaf n h0⟩

/-- The trie of reset and TRIECLEAR meets the invariants (R47: "true after reset"). -/
theorem trieInv_rootAlone {cfg : Config} (h : 1 ≤ cfg.nodeCap) : TrieInv cfg rootAlone := by
  have hn : ∀ n, nodeAt rootAlone n = Node.empty := by
    intro n
    cases n with
    | zero => rfl
    | succ n => exact nodeAt_of_le (by simp [rootAlone])
  refine ⟨⟨by simp [rootAlone], by simpa [rootAlone]⟩, ?_, ?_, ?_, ?_, ?_, ?_, ?_⟩ <;> simp [hn]
  · intro k h1
    simpa [rootAlone] using h1
  · intro n h0
    exact Nat.pos_of_ne_zero h0

variable {t : Trie} {m : Nat}

theorem TreeInv.path_lt (h : TreeInv t m) {n : Nat} (hn : n < t.length) {p : Code} {k : Nat}
    (hp : followPath t n p = some k) : k < t.length := by
  induction p generalizing n with
  | nil => simp at hp; omega
  | cons b rest ih =>
    simp only [followPath] at hp
    cases hc : childOf (nodeAt t n) b with
    | none => simp [hc] at hp
    | some j => rw [hc] at hp; exact ih (h.edge _ _ _ hc).2 hp

/-- Two paths to one node are one path (R47 (a)). -/
theorem TreeInv.path_inj (h : TreeInv t m) {p q : Code} {k : Nat}
    (hp : followPath t 0 p = some k) (hq : followPath t 0 q = some k) : p = q := by
  induction p using List.reverseRecOn generalizing q k with
  | nil =>
    simp at hp; subst hp
    rcases List.eq_nil_or_concat q with rfl | ⟨q', b, rfl⟩
    · rfl
    · rw [List.concat_eq_append, followPath_snoc] at hq
      obtain ⟨j, -, hc⟩ := Option.bind_eq_some_iff.mp hq
      have := (h.edge _ _ _ hc).1
      omega
  | append_singleton p' b ih =>
    rw [followPath_snoc] at hp
    obtain ⟨j, hj, hc⟩ := Option.bind_eq_some_iff.mp hp
    rcases List.eq_nil_or_concat q with rfl | ⟨q', b', rfl⟩
    · simp at hq; subst hq
      have := (h.edge _ _ _ hc).1
      omega
    · rw [List.concat_eq_append, followPath_snoc] at hq
      obtain ⟨j', hj', hc'⟩ := Option.bind_eq_some_iff.mp hq
      obtain ⟨rfl, rfl⟩ := h.oneParent _ _ _ _ _ hc hc'
      rw [ih hj hj', List.concat_eq_append]

/-- Every node is reached by a path from the root (R47 (a)). -/
theorem TreeInv.path_exists (h : TreeInv t m) (k : Nat) (hk : k < t.length) : ∃ p, followPath t 0 p = some k := by
  induction k using Nat.strong_induction_on with
  | _ k ih =>
    rcases Nat.eq_zero_or_pos k with rfl | hpos
    · exact ⟨[], rfl⟩
    · obtain ⟨n, b, hc⟩ := h.hasParent k hpos hk
      have he := h.edge _ _ _ hc
      obtain ⟨p, hp⟩ := ih n he.1 (by omega)
      exact ⟨p ++ [b], by rw [followPath_snoc, hp]; exact hc⟩

/-- A path that goes on has no leaf on the way (R47 (c)). -/
theorem TreeInv.no_leaf_inside (h : TreeInv t m) {p r : Code} (hr : r ≠ []) {k : Nat} (hp : followPath t 0 (p ++ r) = some k) :
    leafAt t p = none := by
  cases hl : leafAt t p with
  | none => rfl
  | some sym =>
    obtain ⟨n, hn, hleaf⟩ := leafAt_eq_some.mp hl
    obtain ⟨b, r', rfl⟩ := List.exists_cons_of_ne_nil hr
    rw [followPath_append, hn] at hp
    simp [followPath, h.leafNoChild n b (by simp [hleaf])] at hp

/-- Codes at leaves are prefix-free (R47 (f)). -/
theorem TreeInv.leaves_prefixFree (h : TreeInv t m) {p q : Code} {x y : Symbol} (hp : leafAt t p = some x)
    (hq : leafAt t q = some y) (hpq : p <+: q) : p = q := by
  obtain ⟨r, rfl⟩ := hpq
  rcases eq_or_ne r [] with rfl | hr
  · simp
  · obtain ⟨k, hk, -⟩ := leafAt_eq_some.mp hq
    simp [h.no_leaf_inside hr hk] at hp

/-- Below a node other than `m` with no leaf mark, or with a child, there is a leaf (R47 (d)). -/
theorem TreeInv.leaf_below (h : TreeInv t m) (n : Nat) (hn : n < t.length) (hm : m ≤ n)
    (hc : n = m → ∃ b k, childOf (nodeAt t n) b = some k) (h0 : n ≠ 0 ∨ ∃ b k, childOf (nodeAt t n) b = some k) :
    ∃ r k sym, followPath t n r = some k ∧ (nodeAt t k).leaf = some sym := by
  obtain ⟨d, hd⟩ : ∃ d, d = t.length - n := ⟨_, rfl⟩
  induction d using Nat.strong_induction_on generalizing n with
  | _ d ih =>
    have step : ∀ b k, childOf (nodeAt t n) b = some k →
        ∃ r k sym, followPath t n r = some k ∧ (nodeAt t k).leaf = some sym := by
      intro b k hk
      have he := h.edge _ _ _ hk
      obtain ⟨r, j, sym, hr, hs⟩ := ih (t.length - k) (by omega) k he.2 (by omega) (by omega) (.inl (by omega)) rfl
      exact ⟨b :: r, j, sym, by simp [followPath, hk, hr], hs⟩
    by_cases hb : ∃ b k, childOf (nodeAt t n) b = some k
    · obtain ⟨b, k, hk⟩ := hb
      exact step b k hk
    · have hnone : ∀ b, childOf (nodeAt t n) b = none := by
        intro b
        cases hk : childOf (nodeAt t n) b with
        | none => rfl
        | some k => exact absurd ⟨b, k, hk⟩ hb
      have hne0 : n ≠ 0 := h0.resolve_right hb
      have hnem : n ≠ m := fun e => hb (hc e)
      obtain ⟨sym, hs⟩ := Option.ne_none_iff_exists'.mp (h.barren n hne0 hnem hn (hnone _) (hnone _))
      exact ⟨[], n, sym, rfl, hs⟩

/-! ### One allocation, and the leaf mark -/

/-- Allocating a child adds exactly one path (R202). -/
theorem followPath_growChild (h : TreeInv t m) {p : Code} {n : Nat} (hp : followPath t 0 p = some n) {b : Bool}
    (hc : childOf (nodeAt t n) b = none) (q : Code) :
    followPath (growChild t n b) 0 q = if q = p ++ [b] then some t.length else followPath t 0 q := by
  have hn : n < t.length := h.path_lt h.nonempty hp
  have hpb : followPath t 0 (p ++ [b]) = none := by rw [followPath_snoc, hp]; exact hc
  induction q using List.reverseRecOn with
  | nil => simp
  | append_singleton q x ih =>
    rw [followPath_snoc, ih, followPath_snoc t 0 q x]
    by_cases hq : q = p ++ [b]
    · subst hq
      rw [if_pos rfl, if_neg (by simp), hpb]
      simp only [Option.bind_some, Option.bind_none]
      rw [nodeAt_growChild hn, if_neg (by omega), nodeAt_of_le (Nat.le_refl _), childOf_empty]
    · rw [if_neg hq]
      cases hk : followPath t 0 q with
      | none =>
        rw [if_neg]
        · rfl
        · intro e
          have := (List.append_inj' e rfl).1
          rw [this, hp] at hk
          cases hk
      | some k =>
        simp only [Option.bind_some]
        rw [nodeAt_growChild hn]
        by_cases hkn : k = n
        · subst hkn
          have : q = p := h.path_inj hk hp
          subst this
          rw [if_pos rfl, childOf_withChild]
          by_cases hx : x = b
          · subst hx; simp
          · rw [if_neg hx, if_neg (by simpa using hx)]
        · rw [if_neg hkn, if_neg]
          intro e
          have := (List.append_inj' e rfl).1
          rw [this, hp] at hk
          exact hkn (Option.some.inj hk).symm

theorem leafAt_growChild (h : TreeInv t m) {p : Code} {n : Nat} (hp : followPath t 0 p = some n) {b : Bool}
    (hc : childOf (nodeAt t n) b = none) (q : Code) : leafAt (growChild t n b) q = leafAt t q := by
  have hn : n < t.length := h.path_lt h.nonempty hp
  unfold leafAt
  rw [followPath_growChild h hp hc]
  split
  · rename_i hq
    subst hq
    rw [followPath_snoc, hp]
    simp [hc, nodeAt_growChild hn, nodeAt_of_le (Nat.le_refl _), Nat.ne_of_gt hn]
  · congr 1
    funext k
    rw [nodeAt_growChild hn]
    split
    · rename_i hk; simp [hk]
    · rfl

/-- The tree invariants after an allocation: the new node is the one that is still bare. -/
theorem TreeInv.grow (h : TreeInv t m) {n : Nat} (hn : n < t.length) (hm : m = n) (hl : (nodeAt t n).leaf = none) {b : Bool}
    (hc : childOf (nodeAt t n) b = none) : TreeInv (growChild t n b) t.length := by
  have hch : ∀ k x j, childOf (nodeAt (growChild t n b) k) x = some j ↔
      (k = n ∧ x = b ∧ j = t.length) ∨ childOf (nodeAt t k) x = some j := by
    intro k x j
    rw [nodeAt_growChild hn]
    by_cases hk : k = n
    · subst hk
      rw [if_pos rfl, childOf_withChild]
      by_cases hx : x = b
      · subst hx; simp [hc, eq_comm]
      · simp [hx]
    · simp [hk]
  have hleaf : ∀ k, (nodeAt (growChild t n b) k).leaf = (nodeAt t k).leaf := by
    intro k
    rw [nodeAt_growChild hn]
    split
    · rename_i hk; simp [hk]
    · rfl
  refine ⟨by simp, ?_, ?_, ?_, ?_, ?_, ?_⟩
  · intro k x j hj
    rw [growChild_length]
    rcases (hch k x j).mp hj with ⟨rfl, -, rfl⟩ | hj
    · omega
    · have := h.edge _ _ _ hj; omega
  · intro k h1 h2
    rw [growChild_length] at h2
    by_cases hk : k = t.length
    · exact ⟨n, b, (hch _ _ _).mpr (.inl ⟨rfl, rfl, hk⟩)⟩
    · obtain ⟨j, x, hj⟩ := h.hasParent k h1 (by omega)
      exact ⟨j, x, (hch _ _ _).mpr (.inr hj)⟩
  · intro k j x j' x' hj hj'
    rcases (hch _ _ _).mp hj with ⟨rfl, rfl, rfl⟩ | hj <;> rcases (hch _ _ _).mp hj' with ⟨rfl, rfl, hk⟩ | hj'
    · exact ⟨rfl, rfl⟩
    · exact absurd (h.edge _ _ _ hj').2 (by omega)
    · exact absurd (h.edge _ _ _ ‹childOf (nodeAt t j) x = some k›).2 (by omega)
    · exact h.oneParent _ _ _ _ _ ‹childOf (nodeAt t j) x = some k› hj'
  · rw [hleaf]; exact h.rootNoLeaf
  · intro k x hk
    rw [hleaf] at hk
    have hkn : k ≠ n := by rintro rfl; exact hk hl
    rw [nodeAt_growChild hn, if_neg hkn]
    exact h.leafNoChild k x hk
  · intro k h0 hkm hk hf ht
    rw [growChild_length] at hk
    have hkn : k ≠ n := by
      rintro rfl
      rw [nodeAt_growChild hn, if_pos rfl, childOf_withChild] at hf ht
      cases b <;> simp at hf ht
    rw [nodeAt_growChild hn, if_neg hkn] at hf ht
    rw [hleaf]
    exact h.barren k h0 (by omega) (by omega) hf ht

/-- A node that has a child is no exception to R47 (d), so another node may take that place. -/
theorem TreeInv.move (h : TreeInv t m) {b : Bool} {k : Nat} (hc : childOf (nodeAt t m) b = some k) (j : Nat) : TreeInv t j := by
  refine ⟨h.nonempty, h.edge, h.hasParent, h.oneParent, h.rootNoLeaf, h.leafNoChild, ?_⟩
  intro n h0 _ hn hf ht
  refine h.barren n h0 ?_ hn hf ht
  rintro rfl
  cases b
  · rw [hf] at hc; cases hc
  · rw [ht] at hc; cases hc

/-- The node with its leaf mark set. -/
theorem placeLeaf_new {n : Nat} (hl : (nodeAt t n).leaf = none) (hc : ∀ b, childOf (nodeAt t n) b = none) (sym : Symbol) :
    placeLeaf sym n t = .ok (t.set n { nodeAt t n with leaf := some sym }) := by
  have h0 := hc false
  have h1 := hc true
  simp only [childOf] at h0 h1
  simp at h0 h1
  simp [placeLeaf, hl, h0, h1]

theorem childOf_setLeaf (n : Node) (x : Option Symbol) (b : Bool) : childOf { n with leaf := x } b = childOf n b := by
  cases b <;> rfl

theorem followPath_setLeaf {n : Nat} (hn : n < t.length) (x : Option Symbol) (k : Nat) (q : Code) :
    followPath (t.set n { nodeAt t n with leaf := x }) k q = followPath t k q := by
  induction q generalizing k with
  | nil => rfl
  | cons b rest ih =>
    have : childOf (nodeAt (t.set n { nodeAt t n with leaf := x }) k) b = childOf (nodeAt t k) b := by
      rw [nodeAt_set hn]
      split
      · rename_i hk; rw [childOf_setLeaf, hk]
      · rfl
    simp only [followPath, this]
    cases childOf (nodeAt t k) b with
    | none => rfl
    | some j => exact ih j

theorem leafAt_setLeaf (h : TreeInv t m) {p : Code} {n : Nat} (hp : followPath t 0 p = some n) (sym : Symbol) (q : Code) :
    leafAt (t.set n { nodeAt t n with leaf := some sym }) q = if q = p then some sym else leafAt t q := by
  have hn : n < t.length := h.path_lt h.nonempty hp
  unfold leafAt
  rw [followPath_setLeaf hn]
  cases hk : followPath t 0 q with
  | none =>
    rw [if_neg]
    · rfl
    · rintro rfl; rw [hp] at hk; cases hk
  | some k =>
    simp only [Option.bind_some]
    rw [nodeAt_set hn]
    by_cases hkn : k = n
    · subst hkn
      rw [if_pos rfl, if_pos (h.path_inj hk hp)]
    · rw [if_neg hkn, if_neg]
      rintro rfl
      rw [hp] at hk
      exact hkn (Option.some.inj hk).symm

theorem TreeInv.setLeaf (h : TreeInv t m) {n : Nat} (hn : n < t.length) (hm : m = n) (h0 : n ≠ 0)
    (hc : ∀ b, childOf (nodeAt t n) b = none) (sym : Symbol) (j : Nat) :
    TreeInv (t.set n { nodeAt t n with leaf := some sym }) j := by
  have hch : ∀ k b, childOf (nodeAt (t.set n { nodeAt t n with leaf := some sym }) k) b = childOf (nodeAt t k) b := by
    intro k b
    rw [nodeAt_set hn]
    split
    · rename_i hk; rw [childOf_setLeaf, hk]
    · rfl
  refine ⟨by simpa using h.nonempty, ?_, ?_, ?_, ?_, ?_, ?_⟩
  · simpa only [hch, List.length_set] using h.edge
  · simpa only [hch, List.length_set] using h.hasParent
  · simpa only [hch] using h.oneParent
  · rw [nodeAt_set hn, if_neg (Ne.symm h0)]; exact h.rootNoLeaf
  · intro k b hk
    rw [hch]
    rw [nodeAt_set hn] at hk
    by_cases hkn : k = n
    · rw [hkn]; exact hc b
    · rw [if_neg hkn] at hk; exact h.leafNoChild k b hk
  · intro k hk0 _ hk hf ht
    rw [hch] at hf ht
    rw [nodeAt_set hn]
    by_cases hkn : k = n
    · rw [if_pos hkn]; simp
    · rw [if_neg hkn]
      exact h.barren k hk0 (by omega) (by simpa using hk) hf ht

/-! ### Everything `Insert` can do -/

/-- A code comparable with no stored code, and room for its new nodes: `Insert` succeeds, adds exactly that leaf,
exactly the missing nodes, exactly the paths of the code's prefixes, and keeps the tree (R202). -/
theorem insertFrom_new (cap : Nat) (sym : Symbol) (rest : Code) (t : Trie) (n : Nat) (p : Code) (h : TreeInv t n)
    (hp : followPath t 0 p = some n) (hne : p ++ rest ≠ [])
    (hnc : ∀ q x, leafAt t q = some x → ¬ comparable q (p ++ rest))
    (hroom : t.length + missingNodes t n rest ≤ cap) :
    ∃ t', insertFrom cap sym rest n t = .ok t' ∧ t'.length = t.length + missingNodes t n rest ∧
      (∀ q, leafAt t' q = if q = p ++ rest then some sym else leafAt t q) ∧
      (∀ q, (followPath t' 0 q).isSome = true ↔ (followPath t 0 q).isSome = true ∨ q <+: p ++ rest) ∧
      (∀ j, TreeInv t' j) := by
  have hn : n < t.length := h.path_lt h.nonempty hp
  have hl : (nodeAt t n).leaf = none := by
    cases hl : (nodeAt t n).leaf with
    | none => rfl
    | some x => exact absurd (.inl (List.prefix_append p rest)) (hnc p x (leafAt_eq_some.mpr ⟨n, hp, hl⟩))
  have hpre : ∀ q, q <+: p → (followPath t 0 q).isSome = true := by
    rintro q ⟨r, rfl⟩
    rw [followPath_append] at hp
    obtain ⟨k, hk, -⟩ := Option.bind_eq_some_iff.mp hp
    simp [hk]
  induction rest generalizing t n p with
  | nil =>
    simp only [List.append_nil] at hne hnc ⊢
    have hn0 : n ≠ 0 := by
      rintro rfl
      exact hne (h.path_inj hp rfl)
    have hc : ∀ b, childOf (nodeAt t n) b = none := by
      intro b
      cases hk : childOf (nodeAt t n) b with
      | none => rfl
      | some k =>
        obtain ⟨r, j, x, hr, hx⟩ := h.leaf_below n hn (Nat.le_refl _) (fun _ => ⟨b, k, hk⟩) (.inl hn0)
        have : leafAt t (p ++ r) = some x := leafAt_eq_some.mpr ⟨j, by rw [followPath_append, hp]; exact hr, hx⟩
        exact absurd (.inr (List.prefix_append p r)) (hnc _ _ this)
    refine ⟨_, placeLeaf_new hl hc sym, by simp [missingNodes], leafAt_setLeaf h hp sym, ?_, h.setLeaf hn rfl hn0 hc sym⟩
    intro q
    rw [followPath_setLeaf hn]
    constructor
    · exact .inl
    · rintro (hq | hq)
      · exact hq
      · exact hpre q hq
  | cons b rest ih =>
    have happ : p ++ b :: rest = (p ++ [b]) ++ rest := by simp
    cases hk : childOf (nodeAt t n) b with
    | some k =>
      have hpk : followPath t 0 (p ++ [b]) = some k := by rw [followPath_snoc, hp]; exact hk
      have hk' : k < t.length := (h.edge _ _ _ hk).2
      have hlk : (nodeAt t k).leaf = none := by
        cases hl : (nodeAt t k).leaf with
        | none => rfl
        | some x =>
          exact absurd (.inl (happ ▸ List.prefix_append (p ++ [b]) rest)) (hnc _ x (leafAt_eq_some.mpr ⟨k, hpk, hl⟩))
      have hpre' : ∀ q, q <+: p ++ [b] → (followPath t 0 q).isSome = true := by
        rintro q ⟨r, hr⟩
        rw [← hr, followPath_append] at hpk
        obtain ⟨k, hk, -⟩ := Option.bind_eq_some_iff.mp hpk
        simp [hk]
      obtain ⟨t', h1, h2, h3, h4, h5⟩ := ih t k (p ++ [b]) (h.move hk k) hpk (by simp) (happ ▸ hnc)
        (by simpa [missingNodes, hk] using hroom) hk' hlk hpre'
      refine ⟨t', ?_, ?_, ?_, ?_, h5⟩
      · simp [insertFrom, hl, hk, h1]
      · simpa [missingNodes, hk] using h2
      · rw [happ]; exact h3
      · rw [happ]; exact h4
    | none =>
      have hg := h.grow hn rfl hl hk
      have hpg : followPath (growChild t n b) 0 (p ++ [b]) = some t.length := by
        rw [followPath_growChild h hp hk]; simp
      have hmiss : missingNodes (growChild t n b) t.length rest = rest.length := by
        cases rest with
        | nil => rfl
        | cons x xs =>
          simp [missingNodes, nodeAt_growChild hn, Nat.ne_of_gt hn, nodeAt_of_le (Nat.le_refl t.length)]
      have hroom' : t.length + (rest.length + 1) ≤ cap := by simpa [missingNodes, hk] using hroom
      have hlk : (nodeAt (growChild t n b) t.length).leaf = none := by
        rw [nodeAt_growChild hn, if_neg (Nat.ne_of_gt hn), nodeAt_of_le (Nat.le_refl _)]; rfl
      have hpre' : ∀ q, q <+: p ++ [b] → (followPath (growChild t n b) 0 q).isSome = true := by
        rintro q ⟨r, hr⟩
        rw [← hr, followPath_append] at hpg
        obtain ⟨k, hk, -⟩ := Option.bind_eq_some_iff.mp hpg
        simp [hk]
      obtain ⟨t', h1, h2, h3, h4, h5⟩ := ih (growChild t n b) t.length (p ++ [b]) hg hpg (by simp)
        (by intro q x hq; rw [leafAt_growChild h hp hk] at hq; exact happ ▸ hnc q x hq)
        (by rw [hmiss, growChild_length]; omega) (by simp) hlk hpre'
      refine ⟨t', ?_, ?_, ?_, ?_, h5⟩
      · simp only [insertFrom, hl, hk, h1]
        rw [if_neg (by simp), if_neg (by omega)]
      · simp only [missingNodes, hk]
        rw [h2, hmiss, growChild_length]; omega
      · intro q
        rw [h3, leafAt_growChild h hp hk, happ]
      · intro q
        rw [h4, followPath_growChild h hp hk, happ]
        constructor
        · rintro (hq | hq)
          · split at hq
            · rename_i e; exact .inr (e ▸ List.prefix_append _ _)
            · exact .inl hq
          · exact .inr hq
        · rintro (hq | hq)
          · left
            split
            · rfl
            · exact hq
          · exact .inr hq

/-- A stored code comparable with the new one, other than the same code for the same symbol: ConflictingCodeError (R202 (i) to (iii)). -/
theorem insertFrom_conflict (cap : Nat) (sym : Symbol) (rest : Code) (t : Trie) (n : Nat) (p : Code) (h : TreeInv t m)
    (hp : followPath t 0 p = some n) {q : Code} {x : Symbol} (hq : leafAt t q = some x) (hcmp : comparable q (p ++ rest))
    (hne : ¬ (q = p ++ rest ∧ x = sym)) : insertFrom cap sym rest n t = .error (.conflictingCode sym) := by
  obtain ⟨k, hqk, hx⟩ := leafAt_eq_some.mp hq
  have hproper : ∀ r, r ≠ [] → p ≠ q ++ r := by
    rintro r hr rfl
    simp [h.no_leaf_inside hr hp] at hq
  induction rest generalizing n p with
  | nil =>
    simp only [List.append_nil] at hcmp hne
    have hqp : p <+: q := by
      rcases hcmp with ⟨r, hr⟩ | hc
      · rcases eq_or_ne r [] with rfl | hr'
        · simp at hr; simp [hr]
        · exact absurd hr.symm (hproper r hr')
      · exact hc
    obtain ⟨r, rfl⟩ := hqp
    simp only [insertFrom, placeLeaf]
    cases r with
    | nil =>
      simp only [List.append_nil] at hqk hne hq
      rw [hp] at hqk
      cases hqk
      rw [hx]
      simp only [true_and] at hne
      simp [hne]
    | cons b r =>
      have hln : (nodeAt t n).leaf = none := by
        have := h.no_leaf_inside (by simp : b :: r ≠ []) hqk
        simpa [leafAt, hp] using this
      rw [followPath_append, hp] at hqk
      simp only [Option.bind_some, followPath] at hqk
      cases hc : childOf (nodeAt t n) b with
      | none => simp [hc] at hqk
      | some j =>
        rw [hln]
        cases b <;> simp [childOf] at hc <;> simp [hc]
  | cons b rest ih =>
    simp only [insertFrom]
    cases hln : (nodeAt t n).leaf with
    | some y => simp
    | none =>
      rw [if_neg (by simp)]
      have hqb : p ++ [b] <+: q := by
        have hpq : ¬ q <+: p := by
          rintro ⟨r, hr⟩
          rcases eq_or_ne r [] with rfl | hr'
          · simp at hr; subst hr
            simp [leafAt, hp, hln] at hq
          · exact hproper r hr' hr.symm
        have happ : p ++ b :: rest = (p ++ [b]) ++ rest := by simp
        rw [happ] at hcmp
        rcases hcmp with hc | hc
        · have hpb : p ++ [b] <+: (p ++ [b]) ++ rest := List.prefix_append _ _
          rcases List.prefix_or_prefix_of_prefix hc hpb with h1 | h1
          · rcases List.prefix_concat_iff.mp h1 with h2 | h2
            · exact h2 ▸ List.prefix_refl _
            · exact absurd h2 hpq
          · exact h1
        · exact (List.prefix_append _ _).trans hc
      obtain ⟨r, hr⟩ := hqb
      have hqk' := hqk
      rw [← hr, followPath_append, followPath_snoc, hp] at hqk'
      simp only [Option.bind_some] at hqk'
      cases hc : childOf (nodeAt t n) b with
      | none => simp [hc] at hqk'
      | some j =>
        have hpj : followPath t 0 (p ++ [b]) = some j := by rw [followPath_snoc, hp]; exact hc
        exact ih j (p ++ [b]) hpj (by simpa using hcmp) (by simpa using hne) (by
          rintro r' hr' e
          rw [e] at hpj
          simp [h.no_leaf_inside hr' hpj] at hq)

/-- The same code for the same symbol again: nothing changes (R202). -/
theorem insertFrom_same (cap : Nat) (sym : Symbol) (rest : Code) (t : Trie) (n : Nat) (p : Code) (h : TreeInv t m)
    (hp : followPath t 0 p = some n) (hl : leafAt t (p ++ rest) = some sym) : insertFrom cap sym rest n t = .ok t := by
  induction rest generalizing n p with
  | nil =>
    simp only [List.append_nil] at hl
    obtain ⟨k, hk, hx⟩ := leafAt_eq_some.mp hl
    rw [hp] at hk; cases hk
    simp [insertFrom, placeLeaf, hx]
  | cons b rest ih =>
    obtain ⟨k, hk, hx⟩ := leafAt_eq_some.mp hl
    have hln : (nodeAt t n).leaf = none := by
      have := h.no_leaf_inside (by simp : b :: rest ≠ []) hk
      simpa [leafAt, hp] using this
    rw [show p ++ b :: rest = (p ++ [b]) ++ rest by simp] at hk
    rw [followPath_append, followPath_snoc, hp] at hk
    simp only [Option.bind_some] at hk
    simp only [insertFrom, hln]
    cases hc : childOf (nodeAt t n) b with
    | none => simp [hc] at hk
    | some j =>
      have := ih j (p ++ [b]) (by rw [followPath_snoc, hp]; exact hc) (by simpa using hl)
      simpa using this

/-- A code comparable with no stored code, and too little room: CapacityError(4) (R202). -/
theorem insertFrom_full (cap : Nat) (sym : Symbol) (rest : Code) (t : Trie) (n : Nat) (p : Code) (h : TreeInv t n)
    (hp : followPath t 0 p = some n) (hnc : ∀ q x, leafAt t q = some x → ¬ comparable q (p ++ rest))
    (hfit : t.length ≤ cap) (hroom : cap < t.length + missingNodes t n rest) :
    insertFrom cap sym rest n t = .error (.capacity .trie) := by
  have hn : n < t.length := h.path_lt h.nonempty hp
  have hl : (nodeAt t n).leaf = none := by
    cases hl : (nodeAt t n).leaf with
    | none => rfl
    | some x => exact absurd (.inl (List.prefix_append p rest)) (hnc p x (leafAt_eq_some.mpr ⟨n, hp, hl⟩))
  induction rest generalizing t n p with
  | nil => simp [missingNodes] at hroom; omega
  | cons b rest ih =>
    have happ : p ++ b :: rest = (p ++ [b]) ++ rest := by simp
    simp only [insertFrom, hl]
    rw [if_neg (by simp)]
    cases hk : childOf (nodeAt t n) b with
    | some k =>
      have hpk : followPath t 0 (p ++ [b]) = some k := by rw [followPath_snoc, hp]; exact hk
      refine ih t k (p ++ [b]) (h.move hk k) hpk (happ ▸ hnc) hfit (by simpa [missingNodes, hk] using hroom)
        (h.edge _ _ _ hk).2 ?_
      cases hl : (nodeAt t k).leaf with
      | none => rfl
      | some x =>
        exact absurd (.inl (happ ▸ List.prefix_append (p ++ [b]) rest)) (hnc _ x (leafAt_eq_some.mpr ⟨k, hpk, hl⟩))
    | none =>
      simp only
      by_cases hcap : t.length = cap
      · rw [if_pos hcap]
      · rw [if_neg hcap]
        have hmiss : missingNodes (growChild t n b) t.length rest = rest.length := by
          cases rest with
          | nil => rfl
          | cons x xs =>
            simp [missingNodes, nodeAt_growChild hn, Nat.ne_of_gt hn, nodeAt_of_le (Nat.le_refl t.length)]
        have hroom' : cap < t.length + (rest.length + 1) := by simpa [missingNodes, hk] using hroom
        refine ih (growChild t n b) t.length (p ++ [b]) (h.grow hn rfl hl hk)
          (by rw [followPath_growChild h hp hk]; simp)
          (by intro q x hq; rw [leafAt_growChild h hp hk] at hq; exact happ ▸ hnc q x hq)
          (by rw [growChild_length]; omega) (by rw [hmiss, growChild_length]; omega) (by simp) ?_
        rw [nodeAt_growChild hn, if_neg (Nat.ne_of_gt hn), nodeAt_of_le (Nat.le_refl _)]; rfl

end Sys2Proof.Machine
end

