-- ==== Sys2Proof/Laws/Decoder.lean ====
section
/-! SUPPORT. Laws/Decoder.lean: `Insert` from the root over a legal trie, the size of a trie, the loop of TRIEBUILD,
and the decode walk code by code (R202, R204, R205). -/

namespace Sys2Proof.Machine

/-- A stored symbol is at the end of a path, so the leaves of a trie are what `leafAt` says. -/
theorem TreeInv.leaf_has_path {t : Trie} {m n : Nat} (h : TreeInv t m) {sym : Symbol} (hl : (nodeAt t n).leaf = some sym) :
    ∃ p, leafAt t p = some sym := by
  have hn : n < t.length := by
    by_contra hge
    rw [nodeAt_of_le (Nat.not_lt.mp hge)] at hl
    cases hl
  obtain ⟨p, hp⟩ := h.path_exists n hn
  exact ⟨p, leafAt_eq_some.mpr ⟨n, hp, hl⟩⟩

/-- `Insert` of a code comparable with no stored one, with room for it (R202). -/
theorem insertCode_new {cfg : Config} {t : Trie} (h : TrieInv cfg t) {sym : Symbol} {b : Code} (hb : b ≠ [])
    (hs : sym.toNat < cfg.nsym) (hnc : ∀ q x, leafAt t q = some x → ¬ comparable q b)
    (hroom : t.length + missingNodes t 0 b ≤ cfg.nodeCap) :
    ∃ t', insertCode cfg.nodeCap t sym b = .ok t' ∧ t'.length = t.length + missingNodes t 0 b ∧
      (∀ q, leafAt t' q = if q = b then some sym else leafAt t q) ∧
      (∀ q, (followPath t' 0 q).isSome = true ↔ (followPath t 0 q).isSome = true ∨ q <+: b) ∧ TrieInv cfg t' := by
  obtain ⟨t', h1, h2, h3, h4, h5⟩ := insertFrom_new cfg.nodeCap sym b t 0 [] (h.tree 0) rfl (by simpa using hb)
    (by simpa using hnc) hroom
  simp only [List.nil_append] at h3 h4
  have hT := h5 0
  refine ⟨t', h1, h2, h3, h4, ⟨⟨hT.nonempty, by omega⟩, hT.edge, hT.hasParent, hT.oneParent, hT.rootNoLeaf, hT.leafNoChild,
    fun n h0 hn hf ht => hT.barren n h0 h0 hn hf ht, ?_⟩⟩
  intro n x hl
  obtain ⟨p, hp⟩ := hT.leaf_has_path hl
  rw [h3] at hp
  split at hp
  · cases hp; exact hs
  · obtain ⟨k, -, hk⟩ := leafAt_eq_some.mp hp
    exact h.leafSymbol k x hk

/-- What `Insert` answers when it answers a trie: that trie is legal again (R47). -/
theorem insertCode_keeps_trieInv {cfg : Config} {t t' : Trie} (h : TrieInv cfg t) {sym : Symbol} {b : Code} (hb : b ≠ [])
    (hs : sym.toNat < cfg.nsym) (ht : insertCode cfg.nodeCap t sym b = .ok t') : TrieInv cfg t' := by
  by_cases hc : ∃ q x, leafAt t q = some x ∧ comparable q b
  · obtain ⟨q, x, hq, hcmp⟩ := hc
    by_cases hsame : q = b ∧ x = sym
    · obtain ⟨rfl, rfl⟩ := hsame
      have := insertFrom_same cfg.nodeCap x q t 0 [] (h.tree 0) rfl (by simpa using hq)
      rw [insertCode, this] at ht
      cases ht; exact h
    · have := insertFrom_conflict cfg.nodeCap sym b t 0 [] (h.tree 0) rfl hq (by simpa using hcmp) (by simpa using hsame)
      rw [insertCode, this] at ht
      cases ht
  · have hnc : ∀ q x, leafAt t q = some x → ¬ comparable q b := fun q x hq hcmp => hc ⟨q, x, hq, hcmp⟩
    by_cases hroom : t.length + missingNodes t 0 b ≤ cfg.nodeCap
    · obtain ⟨u, h1, -, -, -, h5⟩ := insertCode_new h hb hs hnc hroom
      rw [h1] at ht
      cases ht; exact h5
    · have := insertFrom_full cfg.nodeCap sym b t 0 [] (h.tree 0) rfl (by simpa using hnc) h.size.2 (by omega)
      rw [insertCode, this] at ht
      cases ht

/-! ### How many nodes a trie has -/

/-- The paths of a trie, each once, are as many as its nodes (R47 (a)). -/
theorem TreeInv.path_list {t : Trie} {m : Nat} (h : TreeInv t m) :
    ∃ l : List Code, l.Nodup ∧ l.length = t.length ∧ ∀ p, p ∈ l ↔ (followPath t 0 p).isSome = true := by
  have hex : ∀ k : Fin t.length, ∃ p, followPath t 0 p = some k.val := fun k => h.path_exists k.val k.isLt
  refine ⟨List.ofFn (fun k : Fin t.length => (hex k).choose), ?_, by simp, ?_⟩
  · rw [List.nodup_ofFn]
    intro j k hjk
    have hj := (hex j).choose_spec
    have hk := (hex k).choose_spec
    simp only at hjk
    rw [hjk, hk] at hj
    exact Fin.ext (Option.some.inj hj).symm
  · intro p
    rw [List.mem_ofFn]
    constructor
    · rintro ⟨k, rfl⟩
      simp [(hex k).choose_spec]
    · intro hp
      obtain ⟨k, hk⟩ := Option.isSome_iff_exists.mp hp
      have hkl := h.path_lt h.nonempty hk
      exact ⟨⟨k, hkl⟩, h.path_inj (hex ⟨k, hkl⟩).choose_spec hk⟩

/-- A trie whose paths are the prefixes of some codes has as many nodes as `trieSize` counts. -/
theorem TreeInv.length_eq_trieSize {t : Trie} {m : Nat} (h : TreeInv t m) (codes : List Code)
    (hp : ∀ p, (followPath t 0 p).isSome = true ↔ p = [] ∨ ∃ c ∈ codes, p <+: c) : t.length = trieSize codes := by
  obtain ⟨l, hnd, hl, hmem⟩ := h.path_list
  rw [← hl, trieSize]
  refine ((List.perm_ext_iff_of_nodup hnd (List.nodup_dedup _)).mpr ?_).length_eq
  intro p
  rw [hmem, hp, List.mem_dedup]
  simp [List.mem_flatMap]

/-- More codes, no fewer nodes. -/
theorem trieSize_mono {a b : List Code} (h : a ⊆ b) : trieSize a ≤ trieSize b := by
  unfold trieSize
  refine (List.subperm_of_subset (List.nodup_dedup _) ?_).length_le
  intro p hp
  rw [List.mem_dedup] at hp ⊢
  simp only [List.mem_cons, List.mem_flatMap] at hp ⊢
  rcases hp with rfl | ⟨c, hc, hpc⟩
  · exact .inl rfl
  · exact .inr ⟨c, h hc, hpc⟩

/-! ### The loop of TRIEBUILD -/

theorem mem_codesOf {ct : CodeTable} {l : List Nat} {c : Code} : c ∈ codesOf ct l ↔ c ≠ [] ∧ ∃ a ∈ l, readEntry ct a = c := by
  simp [codesOf, and_comm]

/-- The trie holds exactly the codes that the symbol values of `l` have in the table. -/
structure Holds (cfg : Config) (ct : CodeTable) (l : List Nat) (t : Trie) : Prop where
  inv : TrieInv cfg t
  leaves : ∀ q sym, leafAt t q = some sym ↔ q ≠ [] ∧ ∃ a ∈ l, sym = BitVec.ofNat 32 a ∧ readEntry ct a = q
  paths : ∀ p, (followPath t 0 p).isSome = true ↔ p = [] ∨ ∃ c ∈ codesOf ct l, p <+: c

theorem Holds.length_eq {cfg : Config} {ct : CodeTable} {l : List Nat} {t : Trie} (h : Holds cfg ct l t) :
    t.length = trieSize (codesOf ct l) := (h.inv.tree 0).length_eq_trieSize _ h.paths

theorem holds_rootAlone {cfg : Config} {ct : CodeTable} (h : 1 ≤ cfg.nodeCap) : Holds cfg ct [] rootAlone := by
  refine ⟨trieInv_rootAlone h, ?_, ?_⟩
  · intro q sym
    have hn : ∀ p n, followPath rootAlone 0 p = some n → (nodeAt rootAlone n).leaf = none := by
      intro p n _
      cases n with
      | zero => rfl
      | succ n => rw [nodeAt_of_le (by simp [rootAlone])]; rfl
    simp only [List.not_mem_nil, false_and, exists_false, and_false, iff_false]
    intro hq
    obtain ⟨n, hp, hl⟩ := leafAt_eq_some.mp hq
    rw [hn q n hp] at hl
    cases hl
  · intro p
    cases p with
    | nil => simp
    | cons b rest =>
      have : childOf (nodeAt rootAlone 0) b = none := by cases b <;> rfl
      simp [followPath, this, codesOf]

/-- A symbol without an entry adds nothing. -/
theorem Holds.skip {cfg : Config} {ct : CodeTable} {l : List Nat} {t : Trie} (h : Holds cfg ct l t) {a : Nat}
    (ha : readEntry ct a = []) : Holds cfg ct (l ++ [a]) t := by
  have hcodes : codesOf ct (l ++ [a]) = codesOf ct l := by simp [codesOf, ha]
  refine ⟨h.inv, ?_, by rw [hcodes]; exact h.paths⟩
  intro q sym
  rw [h.leaves]
  constructor
  · rintro ⟨hq, x, hx, hs⟩
    exact ⟨hq, x, by simp [hx], hs⟩
  · rintro ⟨hq, x, hx, hs, hr⟩
    rcases List.mem_append.mp hx with hx | hx
    · exact ⟨hq, x, hx, hs, hr⟩
    · simp only [List.mem_singleton] at hx
      subst hx
      exact absurd (ha.symm.trans hr).symm hq

/-- One turn of the loop of TRIEBUILD that inserts a code comparable with none before it. -/
theorem Holds.insert {cfg : Config} {ct : CodeTable} {l : List Nat} {t : Trie} (h : Holds cfg ct l t) {a : Nat}
    (ha : readEntry ct a ≠ []) (haN : a < cfg.nsym)
    (hnc : ∀ x ∈ l, readEntry ct x ≠ [] → ¬ comparable (readEntry ct x) (readEntry ct a))
    (hroom : trieSize (codesOf ct (l ++ [a])) ≤ cfg.nodeCap) :
    ∃ t', insertCode cfg.nodeCap t (BitVec.ofNat 32 a) (readEntry ct a) = .ok t' ∧ Holds cfg ct (l ++ [a]) t' := by
  have hnc' : ∀ q x, leafAt t q = some x → ¬ comparable q (readEntry ct a) := by
    intro q x hq
    obtain ⟨hq0, y, hy, -, rfl⟩ := (h.leaves q x).mp hq
    exact hnc y hy hq0
  have hs : (BitVec.ofNat 32 a).toNat < cfg.nsym := by
    rw [BitVec.toNat_ofNat]; exact Nat.lt_of_le_of_lt (Nat.mod_le _ _) haN
  have hpaths : ∀ u : Trie, (∀ q, (followPath u 0 q).isSome = true ↔
      (followPath t 0 q).isSome = true ∨ q <+: readEntry ct a) →
      ∀ p, (followPath u 0 p).isSome = true ↔ p = [] ∨ ∃ c ∈ codesOf ct (l ++ [a]), p <+: c := by
    intro u hu p
    rw [hu, h.paths]
    simp only [mem_codesOf, List.mem_append, List.mem_singleton]
    constructor
    · rintro ((h0 | ⟨c, ⟨hc, x, hx, hr⟩, hp⟩) | hp)
      · exact .inl h0
      · exact .inr ⟨c, ⟨hc, x, .inl hx, hr⟩, hp⟩
      · exact .inr ⟨_, ⟨ha, a, .inr rfl, rfl⟩, hp⟩
    · rintro (h0 | ⟨c, ⟨hc, x, hx | rfl, hr⟩, hp⟩)
      · exact .inl (.inl h0)
      · exact .inl (.inr ⟨c, ⟨hc, x, hx, hr⟩, hp⟩)
      · exact .inr (hr ▸ hp)
  have hsize : t.length + missingNodes t 0 (readEntry ct a) ≤ cfg.nodeCap := by
    obtain ⟨u, -, h2, -, h4, h5⟩ := insertFrom_new _ (BitVec.ofNat 32 a) (readEntry ct a) t 0 [] (h.inv.tree 0) rfl
      (by simpa using ha) (by simpa using hnc') (Nat.le_refl _)
    have := (h5 0).length_eq_trieSize _ (hpaths u (by simpa using h4))
    omega
  obtain ⟨t', h1, -, h3, h4, h5⟩ := insertCode_new h.inv ha hs hnc' hsize
  refine ⟨t', h1, h5, ?_, hpaths t' h4⟩
  intro q sym
  rw [h3]
  constructor
  · intro hq
    split at hq
    · rename_i e
      cases hq
      exact ⟨e ▸ ha, a, by simp, rfl, e.symm⟩
    · obtain ⟨hq0, x, hx, hr⟩ := (h.leaves q sym).mp hq
      exact ⟨hq0, x, by simp [hx], hr⟩
  · rintro ⟨hq0, x, hx, hs', hr⟩
    split
    · rename_i e
      rcases List.mem_append.mp hx with hx | hx
      · have hxe : readEntry ct x ≠ [] := by rw [hr]; exact hq0
        exact absurd (.inl (by rw [hr, e])) (hnc x hx hxe)
      · simp only [List.mem_singleton] at hx
        rw [hs', hx]
    · rename_i e
      rcases List.mem_append.mp hx with hx | hx
      · exact (h.leaves q sym).mpr ⟨hq0, x, hx, hs', hr⟩
      · simp only [List.mem_singleton] at hx
        subst hx
        exact absurd hr.symm e

/-- The loop over symbol values whose codes are pairwise incomparable and fit: every code is inserted and counted (R204). -/
theorem buildFrom_holds {cfg : Config} {ct : CodeTable} (ss l : List Nat) (t : Trie) (count : Nat)
    (h : Holds cfg ct l t) (hN : ∀ a ∈ ss, a < cfg.nsym)
    (hnc : ∀ pre a post, ss = pre ++ a :: post → readEntry ct a ≠ [] → ∀ x ∈ l ++ pre, readEntry ct x ≠ [] →
      ¬ comparable (readEntry ct x) (readEntry ct a))
    (hroom : trieSize (codesOf ct (l ++ ss)) ≤ cfg.nodeCap) :
    ∃ t', buildFrom cfg.nodeCap ct ss t count = .ok (t', count + (codesOf ct ss).length) ∧ Holds cfg ct (l ++ ss) t' := by
  induction ss generalizing l t count with
  | nil => exact ⟨t, by simp [buildFrom, codesOf], by simpa using h⟩
  | cons a rest ih =>
    have hN' : ∀ x ∈ rest, x < cfg.nsym := fun x hx => hN x (by simp [hx])
    have happ : l ++ a :: rest = (l ++ [a]) ++ rest := by simp
    have hnc' : ∀ pre x post, rest = pre ++ x :: post → readEntry ct x ≠ [] → ∀ y ∈ (l ++ [a]) ++ pre, readEntry ct y ≠ [] →
        ¬ comparable (readEntry ct y) (readEntry ct x) := by
      intro pre x post hrest hx y hy
      exact hnc (a :: pre) x post (by simp [hrest]) hx y (by simpa using hy)
    by_cases ha : readEntry ct a = []
    · obtain ⟨t', h1, h2⟩ := ih (l ++ [a]) t count (h.skip ha) hN' hnc' (by rw [← happ]; exact hroom)
      refine ⟨t', ?_, by rw [happ]; exact h2⟩
      rw [buildFrom, if_neg (by simp [ha]), h1]
      simp [codesOf, ha]
    · have hsub : codesOf ct (l ++ [a]) ⊆ codesOf ct (l ++ a :: rest) := by
        intro c hc
        obtain ⟨h0, x, hx, hr⟩ := mem_codesOf.mp hc
        exact mem_codesOf.mpr ⟨h0, x, by simp at hx ⊢; tauto, hr⟩
      obtain ⟨u, hu1, hu2⟩ := h.insert ha (hN a (by simp))
        (fun x hx hx0 => hnc [] a rest rfl ha x (by simpa using hx) hx0) (Nat.le_trans (trieSize_mono hsub) hroom)
      obtain ⟨t', h1, h2⟩ := ih (l ++ [a]) u (count + 1) hu2 hN' hnc' (by rw [← happ]; exact hroom)
      refine ⟨t', ?_, by rw [happ]; exact h2⟩
      rw [buildFrom, if_pos (by simp [ha]), hu1]
      simp only [h1]
      have hlen : (codesOf ct (a :: rest)).length = (codesOf ct rest).length + 1 := by simp [codesOf, ha]
      rw [hlen]
      congr 2
      omega

/-- The loop in two parts. -/
theorem buildFrom_append (cap : Nat) (ct : CodeTable) (l₁ l₂ : List Nat) (t : Trie) (count : Nat) :
    buildFrom cap ct (l₁ ++ l₂) t count =
      match buildFrom cap ct l₁ t count with
      | .error f => .error f
      | .ok (u, n) => buildFrom cap ct l₂ u n := by
  induction l₁ generalizing t count with
  | nil => rfl
  | cons a rest ih =>
    simp only [List.cons_append, buildFrom]
    split
    · cases insertCode cap t (BitVec.ofNat 32 a) (readEntry ct a) with
      | error f => rfl
      | ok u => exact ih u (count + 1)
    · exact ih t count

/-- Whatever the loop of TRIEBUILD answers, its trie is legal (R47). -/
theorem buildFrom_keeps_trieInv {cfg : Config} {ct : CodeTable} (ss : List Nat) (t : Trie) (count : Nat) (h : TrieInv cfg t)
    (hN : ∀ a ∈ ss, a < cfg.nsym) {t' : Trie} {n : Nat} (hb : buildFrom cfg.nodeCap ct ss t count = .ok (t', n)) :
    TrieInv cfg t' := by
  induction ss generalizing t count with
  | nil => cases hb; exact h
  | cons a rest ih =>
    have hN' : ∀ x ∈ rest, x < cfg.nsym := fun x hx => hN x (by simp [hx])
    rw [buildFrom] at hb
    split at hb
    · rename_i ha
      cases hi : insertCode cfg.nodeCap t (BitVec.ofNat 32 a) (readEntry ct a) with
      | error f => rw [hi] at hb; cases hb
      | ok u =>
        rw [hi] at hb
        refine ih u (count + 1) (insertCode_keeps_trieInv h (by simpa using ha) ?_ hi) hN' hb
        rw [BitVec.toNat_ofNat]
        exact Nat.lt_of_le_of_lt (Nat.mod_le _ _) (hN a (by simp))
    · exact ih t count h hN' hb

/-! ### The decode walk -/

/-- Along a path that ends at a node without a leaf mark the walk only moves (R205). -/
theorem walkBits_inside {cfg : Config} {t : Trie} (h : TrieInv cfg t) (cap : Nat) (p : Code) (n k : Nat) (rest : List Bool)
    (rp start : Nat) (dst : List Symbol) (hp : followPath t n p = some k) (hk : (nodeAt t k).leaf = none) :
    walkBits t cap (p ++ rest) rp n start dst = walkBits t cap rest (rp + p.length) k start dst := by
  induction p generalizing n rp with
  | nil => simp at hp; subst hp; rfl
  | cons b p ih =>
    simp only [followPath] at hp
    cases hc : childOf (nodeAt t n) b with
    | none => simp [hc] at hp
    | some j =>
      simp only [hc] at hp
      have hj : (nodeAt t j).leaf = none := by
        cases p with
        | nil => simp at hp; subst hp; exact hk
        | cons x xs =>
          by_contra hl
          simp [followPath, h.leafNoChild j x hl] at hp
      simp only [List.cons_append, walkBits, hc, hj, List.length_cons]
      rw [ih j (rp + 1) hp]
      congr 1
      omega

/-- A stored code, read from the root: the walk reaches its leaf at its last bit (R205). -/
theorem walkBits_code {cfg : Config} {t : Trie} (h : TrieInv cfg t) (cap : Nat) (c : Code) (sym : Symbol) (rest : List Bool)
    (rp : Nat) (dst : List Symbol) (hc : leafAt t c = some sym) :
    walkBits t cap (c ++ rest) rp 0 rp dst =
      if dst.length = cap then .error (.capacity .dst)
      else walkBits t cap rest (rp + c.length) 0 (rp + c.length) (dst ++ [sym]) := by
  obtain ⟨k, hk, hl⟩ := leafAt_eq_some.mp hc
  rcases List.eq_nil_or_concat c with rfl | ⟨p, b, rfl⟩
  · simp at hk; subst hk
    rw [h.rootNoLeaf] at hl; cases hl
  · rw [List.concat_eq_append] at hk ⊢
    rw [followPath_snoc] at hk
    obtain ⟨j, hj, hjc⟩ := Option.bind_eq_some_iff.mp hk
    have hjl : (nodeAt t j).leaf = none := by
      by_contra hne
      rw [h.leafNoChild j b hne] at hjc; cases hjc
    rw [List.append_assoc, walkBits_inside h cap p 0 j _ rp rp dst hj hjl]
    simp only [List.cons_append, List.nil_append, walkBits, hjc, hl, List.length_append, List.length_cons, List.length_nil]
    split
    · rfl
    · congr 1

/-- A sequence of stored codes that fits: the walk emits their symbols and is back at the root (R205). -/
theorem walkBits_codes {cfg : Config} {t : Trie} (h : TrieInv cfg t) (cap : Nat) (pairs : List (Code × Symbol))
    (hp : ∀ e ∈ pairs, leafAt t e.1 = some e.2) (rest : List Bool) (rp : Nat) (dst : List Symbol)
    (hroom : dst.length + pairs.length ≤ cap) :
    walkBits t cap (pairs.flatMap (·.1) ++ rest) rp 0 rp dst =
      walkBits t cap rest (rp + (pairs.flatMap (·.1)).length) 0 (rp + (pairs.flatMap (·.1)).length) (dst ++ pairs.map (·.2)) := by
  induction pairs generalizing rp dst with
  | nil => simp
  | cons e pairs ih =>
    have hlen : dst.length + (pairs.length + 1) ≤ cap := by simpa using hroom
    rw [List.flatMap_cons, List.append_assoc, walkBits_code h cap e.1 e.2 _ rp dst (hp e (by simp)), if_neg (by omega),
      ih (fun x hx => hp x (by simp [hx])) _ _ (by simp; omega)]
    simp [Nat.add_assoc]

/-- The symbols the walk emits are symbols the trie stores, and no more than fit (R205). -/
theorem walkBits_ok {cfg : Config} {t : Trie} (h : TrieInv cfg t) (cap : Nat) (bits : List Bool) (rp np start : Nat)
    (dst out : List Symbol) (hd : dst.length ≤ cap) (hs : ∀ sym ∈ dst, sym.toNat < cfg.nsym)
    (hw : walkBits t cap bits rp np start dst = .ok out) : out.length ≤ cap ∧ ∀ sym ∈ out, sym.toNat < cfg.nsym := by
  induction bits generalizing rp np start dst with
  | nil =>
    simp only [walkBits] at hw
    split at hw
    · cases hw
    · cases hw; exact ⟨hd, hs⟩
  | cons b rest ih =>
    simp only [walkBits] at hw
    cases hc : childOf (nodeAt t np) b with
    | none => rw [hc] at hw; cases hw
    | some k =>
      rw [hc] at hw
      cases hl : (nodeAt t k).leaf with
      | none => simp only [hl] at hw; exact ih _ _ _ _ hd hs hw
      | some sym =>
        simp only [hl] at hw
        split at hw
        · cases hw
        · refine ih _ _ _ _ (by simp; omega) ?_ hw
          intro x hx
          rcases List.mem_append.mp hx with hx | hx
          · exact hs x hx
          · simp only [List.mem_singleton] at hx
            subst hx
            exact h.leafSymbol k x hl

end Sys2Proof.Machine
end

