-- ==== Sys2Proof/Laws/Encoder.lean ====
section
/-! SUPPORT. Laws/Encoder.lean: what the encoder's two passes compute: the message's length, and the message itself (R96, R186 to R188). -/

namespace Sys2Proof.Machine

@[simp] theorem message_nil (ct : CodeTable) : message ct [] = [] := rfl

@[simp] theorem message_cons (ct : CodeTable) (sym : Symbol) (rest : List Symbol) :
    message ct (sym :: rest) = readEntry ct sym.toNat ++ message ct rest := rfl

/-- Pass 1 over a stream whose symbols all have an entry: the length of the message. -/
theorem sizePass_of_allCoded (ct : CodeTable) (stream : List Symbol) (h : AllCoded ct stream) (i total : Nat) :
    sizePass ct i total stream = .ok (total + (message ct stream).length) := by
  induction stream generalizing i total with
  | nil => simp [sizePass]
  | cons sym rest ih =>
    have hs : readEntry ct sym.toNat ≠ [] := h sym (by simp)
    have hr : AllCoded ct rest := fun x hx => h x (by simp [hx])
    rw [sizePass, if_neg (by simpa using hs), ih hr]
    simp [Nat.add_assoc]

/-- Pass 1 over a stream with a symbol that has no entry: the fault names the first one. -/
theorem sizePass_first_unknown (ct : CodeTable) (pre : List Symbol) (sym : Symbol) (post : List Symbol) (hp : AllCoded ct pre)
    (hs : readEntry ct sym.toNat = []) (i total : Nat) :
    sizePass ct i total (pre ++ sym :: post) = .error (.unknownSymbol (i + pre.length)) := by
  induction pre generalizing i total with
  | nil => simp [sizePass, hs]
  | cons x rest ih =>
    have hx : readEntry ct x.toNat ≠ [] := hp x (by simp)
    have hr : AllCoded ct rest := fun y hy => hp y (by simp [hy])
    rw [List.cons_append, sizePass, if_neg (by simpa using hx), ih hr]
    simp only [List.length_cons]
    congr 2
    omega

/-- One code of pass 2, written over zeros: the code at `wp`, the rest as before. -/
theorem writeCode_over_zeros (pre : List Bool) (b : Code) (n : Nat) :
    writeCode (pre ++ zeroBuffer (b.length + n)) pre.length b = (pre ++ b ++ zeroBuffer n, pre.length + b.length) := by
  induction b generalizing pre with
  | nil => simp [writeCode]
  | cons x rest ih =>
    have hz : zeroBuffer ((x :: rest).length + n) = false :: zeroBuffer (rest.length + n) := by
      rw [List.length_cons, Nat.add_right_comm]; rfl
    have hset : (if x then putBit (pre ++ zeroBuffer ((x :: rest).length + n)) pre.length true
        else pre ++ zeroBuffer ((x :: rest).length + n)) = (pre ++ [x]) ++ zeroBuffer (rest.length + n) := by
      rw [hz]
      cases x <;> simp [putBit]
    have hi := ih (pre ++ [x])
    rw [writeCode, hset, show pre.length + 1 = (pre ++ [x]).length by simp, hi]
    simp [Nat.add_assoc, Nat.add_comm 1]

theorem writePass_over_zeros (ct : CodeTable) (stream : List Symbol) (pre : List Bool) :
    writePass ct (pre ++ zeroBuffer (message ct stream).length) pre.length stream = pre ++ message ct stream := by
  induction stream generalizing pre with
  | nil => simp [writePass, zeroBuffer]
  | cons sym rest ih =>
    have hw := writeCode_over_zeros pre (readEntry ct sym.toNat) (message ct rest).length
    rw [message_cons, List.length_append, writePass, hw]
    have := ih (pre ++ readEntry ct sym.toNat)
    rw [List.length_append] at this
    simpa using this

/-- Pass 2 writes the message (R188). -/
theorem writePass_eq_message (ct : CodeTable) (stream : List Symbol) :
    writePass ct (zeroBuffer (message ct stream).length) 0 stream = message ct stream := by
  simpa using writePass_over_zeros ct stream []

theorem message_length_eq_sum (ct : CodeTable) (stream : List Symbol) :
    (message ct stream).length = (stream.map (fun sym => (readEntry ct sym.toNat).length)).sum := by
  simp [message, List.length_flatMap]

end Sys2Proof.Machine
end

