-- ==== Sys2Proof/Laws/Exec.lean ====
section
/-! SUPPORT. Laws/Exec.lean: each meaning that checks something, as the one case split it makes. -/

namespace Sys2Proof.Machine

theorem execCtwrite_eq (s : State) :
    execCtwrite s =
      if s.cfg.nsym ≤ s.a0.toNat then .next (raise s (.badOperand .a0))
      else if s.cfg.maxlen < s.a1.toNat then .next (raise s (.badOperand .a1))
      else if 2 ^ s.a1.toNat ≤ carrierValue s.c then .next (raise s (.badOperand .c))
      else .next (finish { s with ct := writeEntry s.ct s.a0.toNat (codeOfValue s.a1.toNat (carrierValue s.c)) } 0) := by
  simp only [execCtwrite, codeOperand_eq]
  split_ifs <;> rfl

theorem execCtread_eq (s : State) :
    execCtread s =
      if s.cfg.nsym ≤ s.a0.toNat then .next (raise s (.badOperand .a0))
      else .next (finish { s with c := carrierOfValue s.cfg.cw (valueOfCode (readEntry s.ct s.a0.toNat)) }
        (BitVec.ofNat 32 (readEntry s.ct s.a0.toNat).length)) := by
  simp only [execCtread, symbolOperand_eq]
  split_ifs <;> rfl

theorem execBbcreate_eq (s : State) :
    execBbcreate s =
      if s.a0.toInt < 0 then .next (raise s (.invalidLength s.a0))
      else if s.a0.toInt > s.cfg.bbCap then .next (raise s (.capacity .bb))
      else .next (finish { s with bb := zeroBuffer s.a0.toInt.toNat } 0) := by
  simp only [execBbcreate, bufferLengthOperand_eq]
  split_ifs <;> rfl

theorem execBbget_eq (s : State) :
    execBbget s =
      if s.bb.length ≤ s.a0.toNat then .next (raise s (.indexOutOfRange s.a0))
      else .next (finish s (bitWord (getBit s.bb s.a0.toNat))) := by
  simp only [execBbget, indexOperand_eq]
  split_ifs <;> rfl

theorem execBbset_eq (s : State) :
    execBbset s =
      if s.bb.length ≤ s.a0.toNat then .next (raise s (.indexOutOfRange s.a0))
      else .next (finish { s with bb := putBit s.bb s.a0.toNat true } 0) := by
  simp only [execBbset, indexOperand_eq]
  split_ifs <;> rfl

theorem execBbclear_eq (s : State) :
    execBbclear s =
      if s.bb.length ≤ s.a0.toNat then .next (raise s (.indexOutOfRange s.a0))
      else .next (finish { s with bb := putBit s.bb s.a0.toNat false } 0) := by
  simp only [execBbclear, indexOperand_eq]
  split_ifs <;> rfl

theorem execBbrdbyte_eq (s : State) :
    execBbrdbyte s =
      if s.bb.length ≤ 8 * s.a0.toNat then .next (raise s (.indexOutOfRange s.a0))
      else .next (finish s (BitVec.ofNat 32 (readByte s.bb s.a0.toNat))) := by
  simp only [execBbrdbyte, byteIndexOperand_eq]
  split_ifs <;> rfl

theorem execBbwrbyte_eq (s : State) :
    execBbwrbyte s =
      if s.bb.length ≤ 8 * s.a0.toNat then .next (raise s (.indexOutOfRange s.a0))
      else if 255 < s.a1.toNat then .next (raise s (.badOperand .a1))
      else .next (finish { s with bb := writeByte s.bb s.a0.toNat s.a1 } 0) := by
  simp only [execBbwrbyte, byteIndexOperand_eq, byteOperand_eq]
  split_ifs <;> rfl

theorem appendSource_eq (s : State) (sym : Symbol) :
    appendSource s sym = if s.src.length = s.cfg.srcCap then .error (.capacity .src) else .ok { s with src := s.src ++ [sym] } := by
  simp only [appendSource, raiseIf]
  split_ifs <;> rfl

theorem execSrcpush_eq (s : State) :
    execSrcpush s =
      if s.cfg.nsym ≤ s.a0.toNat then .next (raise s (.badOperand .a0))
      else if s.src.length = s.cfg.srcCap then .next (raise s (.capacity .src))
      else .next (finish { s with src := s.src ++ [s.a0] } (BitVec.ofNat 32 (s.src ++ [s.a0]).length)) := by
  simp only [execSrcpush, symbolOperand_eq, appendSource_eq]
  split_ifs <;> simp [*]

theorem execSrcterm_eq (s : State) :
    execSrcterm s =
      if s.src.getLast? = some s.term then .next (finish s 0)
      else if s.src.length = s.cfg.srcCap then .next (raise s (.capacity .src))
      else .next (finish { s with src := s.src ++ [s.term] } 1) := by
  simp only [execSrcterm, appendSource_eq]
  split_ifs <;> rfl

theorem execSrcread_eq (s : State) :
    execSrcread s =
      if s.src.length ≤ s.a0.toNat then .next (raise s (.indexOutOfRange s.a0))
      else .next (finish s (s.src.getD s.a0.toNat 0)) := by
  simp only [execSrcread, indexOperand_eq]
  split_ifs <;> rfl

theorem execDstread_eq (s : State) :
    execDstread s =
      if s.dst.length ≤ s.a0.toNat then .next (raise s (.indexOutOfRange s.a0))
      else .next (finish s (s.dst.getD s.a0.toNat 0)) := by
  simp only [execDstread, indexOperand_eq]
  split_ifs <;> rfl

theorem execEncsize_eq (s : State) :
    execEncsize s =
      match sizePass s.ct 0 0 s.src with
      | .error f => .next (raise s f)
      | .ok total => .next (finish s (BitVec.ofNat 32 total)) := by
  simp only [execEncsize]
  cases sizePass s.ct 0 0 s.src <;> rfl

theorem execEncode_eq (s : State) :
    execEncode s =
      match sizePass s.ct 0 0 s.src with
      | .error f => .next (raise s f)
      | .ok total =>
        if total > s.cfg.bbCap then .next (raise s (.capacity .bb))
        else .next (finish { s with bb := writePass s.ct (zeroBuffer total) 0 s.src } (BitVec.ofNat 32 total)) := by
  simp only [execEncode]
  cases sizePass s.ct 0 0 s.src with
  | error f => rfl
  | ok total => simp only [bind_ok, raiseIf]; split_ifs <;> rfl

theorem execTrieadd_eq (s : State) :
    execTrieadd s =
      if s.cfg.nsym ≤ s.a0.toNat then .next (raise s (.badOperand .a0))
      else if s.cfg.maxlen < s.a1.toNat then .next (raise s (.badOperand .a1))
      else if 2 ^ s.a1.toNat ≤ carrierValue s.c then .next (raise s (.badOperand .c))
      else if s.a1.toNat = 0 then .next (raise s (.badOperand .a1))
      else match insertCode s.cfg.nodeCap s.trie s.a0 (codeOfValue s.a1.toNat (carrierValue s.c)) with
        | .error f => .next (raise s f)
        | .ok t => .next (finish { s with trie := t } (BitVec.ofNat 32 t.length)) := by
  simp only [execTrieadd, codeOperand_eq]
  split_ifs
  · rfl
  · rfl
  · rfl
  · simp only [bind_ok, codeOfValue_length, raiseIf, if_pos, *]; rfl
  · simp only [bind_ok, codeOfValue_length, raiseIf, if_false, *]
    cases insertCode s.cfg.nodeCap s.trie s.a0 (codeOfValue s.a1.toNat (carrierValue s.c)) <;> rfl

theorem execTriebuild_eq (s : State) :
    execTriebuild s =
      match buildFrom s.cfg.nodeCap s.ct (List.range s.cfg.nsym) rootAlone 0 with
      | .error f => .next (raise { s with trie := rootAlone } f)
      | .ok (t, count) => .next (finish { s with trie := t } (BitVec.ofNat 32 count)) := by
  simp only [execTriebuild]
  rcases buildFrom s.cfg.nodeCap s.ct (List.range s.cfg.nsym) rootAlone 0 with f | ⟨t, count⟩ <;> rfl

theorem execDecode_eq (s : State) :
    execDecode s =
      match walkBits s.trie s.cfg.dstCap s.bb 0 0 0 [] with
      | .error f => .next (raise { s with dst := [] } f)
      | .ok dst => .next (finish { s with dst := dst } (BitVec.ofNat 32 dst.length)) := by
  simp only [execDecode]
  cases walkBits s.trie s.cfg.dstCap s.bb 0 0 0 [] <;> rfl

/-- All that a command can do: it ends normally and only its own memories and `C` (or, for RESET, the whole block) change,
or it faults and only the report changes, but for what DECODE and TRIEBUILD give up (R263, R264). -/
theorem exec_cases (i : Instr) (s t : State) (h : exec i s = .next t) :
    (∃ u v, t = finish u v ∧ (i = .reset → u = resetBlock s) ∧ (i ≠ .reset →
      u.cfg = s.cfg ∧ u.port = s.port ∧ u.replies = s.replies ∧ u.a0 = s.a0 ∧ u.a1 = s.a1 ∧ u.term = s.term ∧
      (i ≠ .ctread → u.c = s.c) ∧ (i ≠ .ctwrite → u.ct = s.ct) ∧
      (i ∉ ([.bbcreate, .bbset, .bbclear, .bbwrbyte, .encode] : List Instr) → u.bb = s.bb) ∧
      (i ∉ ([.srcclear, .srcpush, .srcterm] : List Instr) → u.src = s.src) ∧
      (i ≠ .decode → u.dst = s.dst) ∧
      (i ∉ ([.trieclear, .trieadd, .triebuild] : List Instr) → u.trie = s.trie))) ∨
    ∃ f, i ≠ .reset ∧
      t = raise { s with
        dst := if i = .decode then [] else s.dst, trie := if i = .triebuild then rootAlone else s.trie } f := by
  cases i
  all_goals
    simp only [exec, execCtwrite_eq, execCtread_eq, execBbcreate_eq, execBbget_eq, execBbset_eq, execBbclear_eq,
      execBbrdbyte_eq, execBbwrbyte_eq, execSrcpush_eq, execSrcterm_eq, execSrcread_eq, execDstread_eq, execEncsize_eq,
      execEncode_eq, execTrieadd_eq, execTriebuild_eq, execDecode_eq, execNop, execReset, execSrcclear, execTrieclear,
      commit_ok] at h
  all_goals (repeat' split at h)
  all_goals
    cases h
    first
      | (left; refine ⟨_, _, rfl, by simp, by simp⟩)
      | (right; refine ⟨_, by simp, by simp; rfl⟩)

/-! ### What the loops can raise -/

theorem sizePass_error {ct : CodeTable} {i n : Nat} {l : List Symbol} {f : Raised} (h : sizePass ct i n l = .error f) :
    ∃ k, f = .unknownSymbol k := by
  induction l generalizing i n with
  | nil => cases h
  | cons a r ih =>
    unfold sizePass at h
    split at h
    · cases h; simp
    · exact ih h

theorem insertFrom_error {cap : Nat} {sym : Symbol} {b : Code} {n : Nat} {t : Trie} {f : Raised}
    (h : insertFrom cap sym b n t = .error f) : f = .conflictingCode sym ∨ f = .capacity .trie := by
  induction b generalizing n t with
  | nil =>
    unfold insertFrom placeLeaf at h
    repeat' split at h
    all_goals (cases h; try simp)
  | cons x r ih =>
    unfold insertFrom at h
    repeat' split at h
    all_goals first | exact ih h | (cases h; simp)

theorem buildFrom_error {cap : Nat} {ct : CodeTable} {l : List Nat} {t : Trie} {n : Nat} {f : Raised}
    (h : buildFrom cap ct l t n = .error f) : (∃ sym, f = .conflictingCode sym) ∨ f = .capacity .trie := by
  induction l generalizing t n with
  | nil => cases h
  | cons a r ih =>
    unfold buildFrom at h
    split at h
    · split at h
      · cases h
        rename_i hh
        rcases insertFrom_error hh with rfl | rfl <;> simp
      · exact ih h
    · exact ih h

theorem walkBits_error {t : Trie} {cap : Nat} {l : List Bool} {rp np st : Nat} {d : List Symbol} {f : Raised}
    (h : walkBits t cap l rp np st d = .error f) :
    (∃ k, f = .malformedStream k) ∨ (∃ k, f = .missingChild k) ∨ f = .capacity .dst := by
  induction l generalizing rp np st d with
  | nil => unfold walkBits at h; split at h <;> cases h; simp
  | cons a r ih =>
    unfold walkBits at h
    repeat' split at h
    all_goals first | exact ih h | (cases h; simp)

end Sys2Proof.Machine
end

