-- ==== Sys2Proof/Laws/Port.lean ====
section
/-! SUPPORT. Laws/Port.lean: what the step, the register map and the word decoder do, said once. -/

namespace Sys2Proof.Machine

theorem step_of_valid {s : State} (h : s.cfg.Valid) : step s = takeTransaction s := if_pos h

theorem step_of_not_valid {s : State} (h : ¬ s.cfg.Valid) : step s = .refused .notAConfiguration := if_neg h

/-- A step that answers a next state ran in a configuration of the hardware and took one transaction, or had none to take. -/
theorem step_cases {s t : State} (h : step s = .next t) :
    s.cfg.Valid ∧ ((s.port = [] ∧ t = s) ∨
      ∃ tr rest, s.port = tr :: rest ∧ transact { s with port := rest } tr = .next t) := by
  unfold step at h
  split at h
  · rename_i hv
    refine ⟨hv, ?_⟩
    unfold takeTransaction at h
    split at h
    · rename_i hp; left; exact ⟨hp, by simpa using h.symm⟩
    · rename_i tr rest hp; right; exact ⟨tr, rest, hp, h⟩
  · cases h

theorem takeTransaction_nil {s : State} (h : s.port = []) : takeTransaction s = .next s := by
  simp [takeTransaction, h]

theorem takeTransaction_cons {s : State} {tr : Transaction} {rest : List Transaction} (h : s.port = tr :: rest) :
    takeTransaction s = transact { s with port := rest } tr := by
  simp [takeTransaction, h]

@[simp] theorem transact_hostRead (s : State) (index : BitVec 10) :
    transact s (.hostRead index) = .next { s with replies := hostRead s index :: s.replies } := rfl

@[simp] theorem transact_hostWrite (s : State) (index : BitVec 10) (w : Word) :
    transact s (.hostWrite index w) = hostWrite s index w := rfl

@[simp] theorem transact_hardReset (s : State) : transact s .hardReset = .next (resetBlock s) := rfl

theorem execute_of_decode {s : State} {w : Word} {i : Instr} (h : decodeWord w = .ok i) : execute s w = exec i s := by
  simp [execute, h]

theorem execute_of_illegal {s : State} {w : Word} {e : IllegalWord} (h : decodeWord w = .error e) :
    execute s w = .next (raise s (.illegalCommand w)) := by
  unfold execute
  rw [h]
  rfl

theorem Config.cw_le {cfg : Config} (h : cfg.Valid) : cfg.cw ≤ 32 := by
  have := h.2.1.2
  unfold Config.cw
  omega

/-- A `C` register's index selects that register (R21). -/
theorem regAt_c (cfg : Config) {index : BitVec 10} {k : Nat} (hk : k < cfg.cw) (h : index.toNat = 0x020 + k) :
    regAt cfg index = some (.c k) := by
  unfold regAt
  rw [h]
  split <;> first | omega | skip
  rw [if_pos (by omega)]
  simp

/-- The register an index selects, for every register that exists: reading a name's own index finds it (R21). -/
theorem regAt_indexOf {cfg : Config} (hv : cfg.Valid) (r : Reg) (hr : r.wellFormed cfg = true) : regAt cfg (indexOf r) = some r := by
  cases r
  case c k =>
    have hk : k < cfg.cw := by simpa [Reg.wellFormed] using hr
    have := Config.cw_le hv
    refine regAt_c cfg hk ?_
    simp [indexOf, BitVec.toNat_ofNat]
    omega
  all_goals rfl

/-- A word index that is neither in the two fixed ranges nor a `C` register's is unmapped (R68). -/
theorem regAt_unmapped {cfg : Config} {index : BitVec 10} (h1 : 0x00C < index.toNat)
    (h2 : index.toNat < 0x010 ∨ 0x015 < index.toNat) (h3 : ¬ (0x020 ≤ index.toNat ∧ index.toNat < 0x020 + cfg.cw)) :
    regAt cfg index = none := by
  unfold regAt
  split <;> first | omega | skip
  exact if_neg h3

end Sys2Proof.Machine

namespace Sys2Proof

/-- An opcode names a command exactly when it is that command's (R92). -/
theorem instrOfOpcode_eq_some (op : BitVec 8) (i : Instr) : instrOfOpcode op = some i ↔ op = opcode i := by
  constructor
  · intro h
    simp only [instrOfOpcode, Option.map_eq_some_iff] at h
    obtain ⟨row, hr, rfl⟩ := h
    have h1 : row.1 = op := by simpa using List.find?_some hr
    have h2 : ∀ r ∈ opcodeMap, r.1 = opcode r.2 := by decide
    rw [← h1, h2 row (List.mem_of_find?_eq_some hr)]
  · rintro rfl
    cases i <;> rfl

/-- The fields of a word as numbers (R90). -/
theorem fieldOp_toNat (w : Word) : (fieldOp w).toNat = w.toNat % 256 := by simp [fieldOp]

theorem fieldRsv_toNat (w : Word) : (fieldRsv w).toNat = w.toNat / 256 := by
  have := w.isLt
  simp [fieldRsv, Nat.shiftRight_eq_div_pow]
  omega

theorem encode_toNat (i : Instr) : (encode i).toNat = (opcode i).toNat := by cases i <;> rfl

end Sys2Proof
end

