-- ==== Sys2Proof/Laws/HostAssembler.lean ====
section
/-! SUPPORT. Laws/HostAssembler.lean: what the reading macros of R101 give the host: TOBITSTRING the buffer's string (R158),
READOUT the decoded stream, each leaving every memory as it was. -/

namespace Sys2Proof.Machine

theorem decodeWord_encode (i : Instr) : decodeWord (encode i) = .ok i := by cases i <;> rfl

/-- A statement of one operand: `A0` is written, then the command runs (R100). -/
theorem issue_withA0 (s : State) (i : Instr) (n : Int) :
    issue s (expandStatement s.cfg (.withA0 i n)) =
      match exec i { s with a0 := BitVec.ofInt 32 n } with
      | .next u => .next u
      | .fault f => .fault f
      | .refused r => .refused r := by
  have h : transact { s with a0 := BitVec.ofInt 32 n } (commandTransaction i) = exec i { s with a0 := BitVec.ofInt 32 n } :=
    execute_of_decode (decodeWord_encode i)
  simp only [expandStatement, issue]
  have h0 : transact s (.hostWrite (indexOf .a0) (BitVec.ofInt 32 n)) = .next { s with a0 := BitVec.ofInt 32 n } := rfl
  rw [h0]
  cases he : exec i { s with a0 := BitVec.ofInt 32 n } <;> simp only [h, he]

/-- A read statement of a register that exists: its word becomes the latest reply. -/
theorem issueMacro_read {s : State} (hv : s.cfg.Valid) (r : Reg) (hr : r.wellFormed s.cfg = true) (rest : List Statement) :
    issueMacro s (.read r :: rest) = issueMacro { s with replies := readReg s r :: s.replies } rest := by
  have h : hostRead s (indexOf r) = readReg s r := by unfold hostRead; rw [regAt_indexOf hv r hr]
  simp [issueMacro, expandStatement, issue, isCommand, h]

/-- The loop of a read command that finds an element at every index: the results are read in order, and only `A0`, the report and
the replies change. -/
theorem issueMacro_readLoop (i : Instr) (f : Nat → Word) (l : List Nat) (s : State) (hv : s.cfg.Valid)
    (h : ∀ p ∈ l, ∀ u : State, u.cfg = s.cfg → u.bb = s.bb → u.dst = s.dst →
      exec i { u with a0 := BitVec.ofInt 32 p } = .next (finish { u with a0 := BitVec.ofInt 32 p } (f p))) :
    ∃ u, issueMacro s (l.flatMap (fun p : Nat => [Statement.withA0 i (p : Int), Statement.read .result])) = .next u ∧
      u.replies = (l.map f).reverse ++ s.replies ∧ u.cfg = s.cfg ∧ u.a1 = s.a1 ∧ u.c = s.c ∧ u.term = s.term ∧
      u.ct = s.ct ∧ u.bb = s.bb ∧ u.src = s.src ∧ u.dst = s.dst ∧ u.trie = s.trie ∧ u.port = s.port := by
  induction l generalizing s with
  | nil => exact ⟨s, rfl, by simp⟩
  | cons p rest ih =>
    have hp := h p (by simp) s rfl rfl rfl
    obtain ⟨u, h1, h2, h3⟩ := ih { finish { s with a0 := BitVec.ofInt 32 p } (f p) with replies := f p :: s.replies } hv
      (fun q hq u hc hb hd => h q (by simp [hq]) u hc hb hd)
    refine ⟨u, ?_, by simp [h2], h3⟩
    have hs (rest : List Statement) : issueMacro s (.withA0 i p :: rest) =
        issueMacro (finish { s with a0 := BitVec.ofInt 32 p } (f p)) rest := by
      rw [issueMacro, issue_withA0, hp]
      exact if_neg (by simp)
    rw [List.flatMap_cons, List.cons_append, List.cons_append, List.nil_append, hs,
      issueMacro_read (s := finish { s with a0 := BitVec.ofInt 32 p } (f p)) hv .result rfl]
    exact h1

/-- What is left to a reading macro once its loop has run: the length, then the results, in the order they were read. -/
theorem wordsRead_of_replies {s u : State} {n : Word} {results : List Word} (h : u.replies = results.reverse ++ n :: s.replies) :
    wordsRead s u = n :: results := by
  unfold wordsRead
  rw [h]
  have hl : (results.reverse ++ n :: s.replies).length - s.replies.length = (results.reverse ++ [n]).length := by simp; omega
  have hr : results.reverse ++ n :: s.replies = (results.reverse ++ [n]) ++ s.replies := by simp
  rw [hl, hr, List.take_left]
  simp

theorem toNat_ofInt_natCast {p : Nat} (h : p < 2 ^ 31) : (BitVec.ofInt 32 (p : Int)).toNat = p := by
  rw [BitVec.ofInt_natCast, BitVec.toNat_ofNat]
  omega

theorem length_toNat {α : Type} {l : List α} (h : l.length < 2 ^ 31) : (BitVec.ofNat 32 l.length).toNat = l.length := by
  rw [BitVec.toNat_ofNat]
  omega

/-- The two steps of a reading macro whose length register reads `n` and whose loop succeeds. -/
theorem runPseudo_reading {s : State} {p : Pseudo} {r : Reg} {i : Instr} {n : Nat} (hv : s.cfg.Valid) (f : Nat → Word)
    (hr : r.wellFormed s.cfg = true) (h1 : expandPseudo p = [.read r]) (h2 : ∀ k, expandAfterRead p k = readLoop i k)
    (hn : (readReg s r).toNat = n)
    (hf : ∀ k < n, ∀ u : State, u.cfg = s.cfg → u.bb = s.bb → u.dst = s.dst →
      exec i { u with a0 := BitVec.ofInt 32 k } = .next (finish { u with a0 := BitVec.ofInt 32 k } (f k))) :
    ∃ u, runPseudo s p = .next (u, macroResult p (readReg s r :: (List.range n).map f)) ∧
      u.cfg = s.cfg ∧ u.a1 = s.a1 ∧ u.c = s.c ∧ u.term = s.term ∧
      u.ct = s.ct ∧ u.bb = s.bb ∧ u.src = s.src ∧ u.dst = s.dst ∧ u.trie = s.trie ∧ u.port = s.port := by
  obtain ⟨u, h3, h4, h5⟩ := issueMacro_readLoop i f (List.range n) { s with replies := readReg s r :: s.replies } hv
    (fun k hk => hf k (by simpa using hk))
  refine ⟨u, ?_, h5⟩
  have hw := wordsRead_of_replies (s := s) h4
  unfold runPseudo
  rw [h1, issueMacro_read hv r hr]
  simp only [issueMacro, List.headD_cons, h2, hn, readLoop]
  rw [h3]
  simp only [hw]

/-- R101, R158: TOBITSTRING, issued in any legal state, gives the string of the whole buffer and leaves every memory. -/
theorem runPseudo_toBitString {s : State} (h : s.Inv) :
    ∃ u, runPseudo s .toBitString = .next (u, .bitString (toBitString s.bb)) ∧
      u.cfg = s.cfg ∧ u.a1 = s.a1 ∧ u.c = s.c ∧ u.term = s.term ∧
      u.ct = s.ct ∧ u.bb = s.bb ∧ u.src = s.src ∧ u.dst = s.dst ∧ u.trie = s.trie ∧ u.port = s.port := by
  have hlen : s.bb.length < 2 ^ 31 := lt_of_le_of_lt h.bbFits h.valid.2.2.1
  obtain ⟨u, h1, h2⟩ := runPseudo_reading (s := s) (p := .toBitString) (r := .bblen) (i := .bbget) (n := s.bb.length) h.valid
    (fun k => bitWord (getBit s.bb k)) rfl rfl (fun _ => rfl) (length_toNat hlen) (by
      intro k hk u _ hb _
      have ha : (BitVec.ofInt 32 (k : Int)).toNat = k := toNat_ofInt_natCast (by omega)
      simp only [exec, execBbget_eq, ha, hb]
      exact if_neg (by omega))
  refine ⟨u, ?_, h2⟩
  rw [h1]
  have hs : ((List.range s.bb.length).map (fun k => bitWord (getBit s.bb k))).map bitChar = toBitString s.bb := by
    apply List.ext_getElem
    · simp [toBitString]
    · intro k h3 h4
      simp only [List.length_map, List.length_range] at h3
      simp only [List.getElem_map, List.getElem_range, toBitString, getBit, List.getD_eq_getElem _ _ h3]
      cases s.bb[k] <;> rfl
  simp only [macroResult, List.tail_cons, hs]

/-- R101: READOUT, issued in any legal state, gives the decoded stream and leaves every memory. -/
theorem runPseudo_readOut {s : State} (h : s.Inv) :
    ∃ u, runPseudo s .readOut = .next (u, .symbols s.dst) ∧
      u.cfg = s.cfg ∧ u.a1 = s.a1 ∧ u.c = s.c ∧ u.term = s.term ∧
      u.ct = s.ct ∧ u.bb = s.bb ∧ u.src = s.src ∧ u.dst = s.dst ∧ u.trie = s.trie ∧ u.port = s.port := by
  have hlen : s.dst.length < 2 ^ 31 := lt_of_le_of_lt h.dstFits h.valid.2.2.2.2.1
  obtain ⟨u, h1, h2⟩ := runPseudo_reading (s := s) (p := .readOut) (r := .dstlen) (i := .dstread) (n := s.dst.length) h.valid
    (fun k => s.dst.getD k 0) rfl rfl (fun _ => rfl) (length_toNat hlen) (by
      intro k hk u _ _ hd
      have ha : (BitVec.ofInt 32 (k : Int)).toNat = k := toNat_ofInt_natCast (by omega)
      simp only [exec, execDstread_eq, ha, hd]
      exact if_neg (by omega))
  refine ⟨u, ?_, h2⟩
  rw [h1]
  have hs : (List.range s.dst.length).map (fun k => s.dst.getD k 0) = s.dst := by
    apply List.ext_getElem
    · simp
    · intro k h3 h4
      simp only [List.getElem_map, List.getElem_range, List.getD_eq_getElem _ _ h4]
  simp only [macroResult, List.tail_cons, hs]

end Sys2Proof.Machine
end

