-- ==== Sys2Proof/Laws/Invariant.lean ====
section
/-! SUPPORT. Laws/Invariant.lean: how a command ends keeps the invariant, and the lengths the encoder's pass 2 leaves. -/

namespace Sys2Proof.Machine

theorem State.Inv.finish {s : State} (h : s.Inv) (v : Word) : (finish s v).Inv :=
  { h with errIsCause := by simp, causeNamed := by simp, okInfo := by simp, faultResult := by simp }

theorem State.Inv.raise {s : State} (h : s.Inv) (f : Raised) : (raise s f).Inv :=
  { h with
    errIsCause := by cases f <;> rfl
    causeNamed := by cases f <;> simp [Raised.cause, Cause.code]
    okInfo := by cases f <;> simp [Raised.cause, Cause.code]
    faultResult := by simp }

theorem writeCode_length (b : Code) (bb : List Bool) (wp : Nat) : (writeCode bb wp b).1.length = bb.length := by
  induction b generalizing bb wp with
  | nil => rfl
  | cons x r ih => rw [writeCode, ih]; split <;> simp

@[simp] theorem writePass_length (ct : CodeTable) (l : List Symbol) (bb : List Bool) (wp : Nat) :
    (writePass ct bb wp l).length = bb.length := by
  induction l generalizing bb wp with
  | nil => rfl
  | cons a r ih => simp only [writePass]; rw [ih, writeCode_length]

end Sys2Proof.Machine
end

