-- ==== Sys2Proof/Laws/PerInstr.lean ====
section
/-! SUPPORT. Laws/PerInstr.lean: what is said of each command as syntax. -/

/-- The word of a well-formed command decodes to that command (R91, R92). -/
def Sys2Proof.Laws.RoundTrip.Statement (i : Sys2Proof.Instr) : Prop :=
  i.WellFormed → Sys2Proof.decodeWord (Sys2Proof.encode i) = .ok i

theorem Sys2Proof.Laws.RoundTrip.nop : Sys2Proof.Laws.RoundTrip.Statement .nop := fun _ => rfl

theorem Sys2Proof.Laws.RoundTrip.reset : Sys2Proof.Laws.RoundTrip.Statement .reset := fun _ => rfl

theorem Sys2Proof.Laws.RoundTrip.ctwrite : Sys2Proof.Laws.RoundTrip.Statement .ctwrite := fun _ => rfl

theorem Sys2Proof.Laws.RoundTrip.ctread : Sys2Proof.Laws.RoundTrip.Statement .ctread := fun _ => rfl

theorem Sys2Proof.Laws.RoundTrip.bbcreate : Sys2Proof.Laws.RoundTrip.Statement .bbcreate := fun _ => rfl

theorem Sys2Proof.Laws.RoundTrip.bbget : Sys2Proof.Laws.RoundTrip.Statement .bbget := fun _ => rfl

theorem Sys2Proof.Laws.RoundTrip.bbset : Sys2Proof.Laws.RoundTrip.Statement .bbset := fun _ => rfl

theorem Sys2Proof.Laws.RoundTrip.bbclear : Sys2Proof.Laws.RoundTrip.Statement .bbclear := fun _ => rfl

theorem Sys2Proof.Laws.RoundTrip.bbrdbyte : Sys2Proof.Laws.RoundTrip.Statement .bbrdbyte := fun _ => rfl

theorem Sys2Proof.Laws.RoundTrip.bbwrbyte : Sys2Proof.Laws.RoundTrip.Statement .bbwrbyte := fun _ => rfl

theorem Sys2Proof.Laws.RoundTrip.srcclear : Sys2Proof.Laws.RoundTrip.Statement .srcclear := fun _ => rfl

theorem Sys2Proof.Laws.RoundTrip.srcpush : Sys2Proof.Laws.RoundTrip.Statement .srcpush := fun _ => rfl

theorem Sys2Proof.Laws.RoundTrip.srcterm : Sys2Proof.Laws.RoundTrip.Statement .srcterm := fun _ => rfl

theorem Sys2Proof.Laws.RoundTrip.srcread : Sys2Proof.Laws.RoundTrip.Statement .srcread := fun _ => rfl

theorem Sys2Proof.Laws.RoundTrip.dstread : Sys2Proof.Laws.RoundTrip.Statement .dstread := fun _ => rfl

theorem Sys2Proof.Laws.RoundTrip.encsize : Sys2Proof.Laws.RoundTrip.Statement .encsize := fun _ => rfl

theorem Sys2Proof.Laws.RoundTrip.encode : Sys2Proof.Laws.RoundTrip.Statement .encode := fun _ => rfl

theorem Sys2Proof.Laws.RoundTrip.trieclear : Sys2Proof.Laws.RoundTrip.Statement .trieclear := fun _ => rfl

theorem Sys2Proof.Laws.RoundTrip.trieadd : Sys2Proof.Laws.RoundTrip.Statement .trieadd := fun _ => rfl

theorem Sys2Proof.Laws.RoundTrip.triebuild : Sys2Proof.Laws.RoundTrip.Statement .triebuild := fun _ => rfl

theorem Sys2Proof.Laws.RoundTrip.decode : Sys2Proof.Laws.RoundTrip.Statement .decode := fun _ => rfl
end

