-- ==== Sys2Proof/Laws/Table.lean ====
section
/-! SUPPORT. Laws/Table.lean: the code table as a map (read after write), and its canonical form kept by every write (R41). -/

namespace Sys2Proof.Machine

theorem readEntry_of_forall_ne {ct : CodeTable} {s : Nat} (h : ∀ e ∈ ct, e.1 ≠ s) : readEntry ct s = [] := by
  induction ct with
  | nil => rfl
  | cons e rest ih =>
    have he : e.1 ≠ s := h e (by simp)
    simp [readEntry, he, ih (fun f hf => h f (by simp [hf]))]

theorem readEntry_filter_ne (ct : CodeTable) (s k : Nat) (h : k ≠ s) :
    readEntry (ct.filter (fun e => e.1 ≠ s)) k = readEntry ct k := by
  induction ct with
  | nil => rfl
  | cons e rest ih =>
    by_cases he : e.1 = s
    · have hk : e.1 ≠ k := fun hk => h (hk ▸ he)
      rw [List.filter_cons_of_neg (by simp [he]), ih]
      simp [readEntry, hk]
    · rw [List.filter_cons_of_pos (by simp [he])]
      simp only [readEntry, ih]

theorem readEntry_insertEntry_same (ct : CodeTable) (s : Nat) (b : Code) (h : ∀ e ∈ ct, e.1 ≠ s) :
    readEntry (insertEntry s b ct) s = b := by
  induction ct with
  | nil => simp [insertEntry, readEntry]
  | cons e rest ih =>
    have he : e.1 ≠ s := h e (by simp)
    simp only [insertEntry]
    split
    · simp [readEntry]
    · simp [readEntry, he, ih (fun f hf => h f (by simp [hf]))]

theorem readEntry_insertEntry_ne (ct : CodeTable) (s k : Nat) (b : Code) (h : k ≠ s) :
    readEntry (insertEntry s b ct) k = readEntry ct k := by
  induction ct with
  | nil => simp [insertEntry, readEntry]; intro hk; exact absurd hk.symm h
  | cons e rest ih =>
    simp only [insertEntry]
    split
    · simp [readEntry, Ne.symm h]
    · simp [readEntry, ih]

/-- `CT[s] <- b` then `CT[s]` (R140): in every table, canonical or not. -/
@[simp] theorem readEntry_writeEntry_same (ct : CodeTable) (s : Nat) (b : Code) : readEntry (writeEntry ct s b) s = b := by
  unfold writeEntry
  have h : ∀ e ∈ ct.filter (fun e => e.1 ≠ s), e.1 ≠ s := by simp
  split
  · rename_i hb; rw [hb]; exact readEntry_of_forall_ne h
  · exact readEntry_insertEntry_same _ _ _ h

/-- `CT[s] <- b` leaves every other entry alone (R140). -/
theorem readEntry_writeEntry_ne (ct : CodeTable) (s k : Nat) (b : Code) (h : k ≠ s) :
    readEntry (writeEntry ct s b) k = readEntry ct k := by
  unfold writeEntry
  split
  · exact readEntry_filter_ne _ _ _ h
  · rw [readEntry_insertEntry_ne _ _ _ _ h, readEntry_filter_ne _ _ _ h]

theorem mem_insertEntry {s : Nat} {b : Code} {ct : CodeTable} {e : Nat × Code} :
    e ∈ insertEntry s b ct ↔ e = (s, b) ∨ e ∈ ct := by
  induction ct with
  | nil => simp [insertEntry]
  | cons f rest ih =>
    simp only [insertEntry]
    split
    · simp
    · simp only [List.mem_cons, ih]; tauto

theorem insertEntry_pairwise {s : Nat} {b : Code} {ct : CodeTable} (h : ct.Pairwise (fun e f => e.1 < f.1))
    (hs : ∀ e ∈ ct, e.1 ≠ s) : (insertEntry s b ct).Pairwise (fun e f => e.1 < f.1) := by
  induction ct with
  | nil => simp [insertEntry]
  | cons e rest ih =>
    have hp := List.pairwise_cons.mp h
    have he : e.1 ≠ s := hs e (by simp)
    simp only [insertEntry]
    split
    · rename_i hlt
      refine List.pairwise_cons.mpr ⟨?_, h⟩
      intro f hf
      rcases List.mem_cons.mp hf with rfl | hf
      · exact hlt
      · exact Nat.lt_trans hlt (hp.1 f hf)
    · rename_i hlt
      refine List.pairwise_cons.mpr ⟨?_, ih hp.2 (fun f hf => hs f (by simp [hf]))⟩
      intro f hf
      rcases mem_insertEntry.mp hf with rfl | hf
      · simp only; omega
      · exact hp.1 f hf

/-- Every table write keeps the canonical form (R41). -/
theorem Memory.wf_writeEntry {cfg : Config} {ct : CodeTable} {s : Nat} {b : Code} (h : Memory.wf cfg ct)
    (hs : s < cfg.nsym) (hb : b.length ≤ cfg.maxlen) : Memory.wf cfg (writeEntry ct s b) := by
  have hf : Memory.wf cfg (ct.filter (fun e => e.1 ≠ s)) :=
    ⟨h.1.filter _, fun e he => h.2 e (List.mem_of_mem_filter he)⟩
  unfold writeEntry
  split
  · exact hf
  · rename_i hne
    refine ⟨insertEntry_pairwise hf.1 (by simp), ?_⟩
    intro e he
    rcases mem_insertEntry.mp he with rfl | he
    · exact ⟨hs, List.length_pos_of_ne_nil hne, hb⟩
    · exact hf.2 e he

/-- The empty table of reset is canonical (R48). -/
theorem Memory.wf_nil (cfg : Config) : Memory.wf cfg [] := by simp [Memory.wf]

/-- The memory of the reset state is canonical. -/
theorem Memory.wf_reset : Memory.wf State.reset.cfg State.reset.ct := Memory.wf_nil _

/-- What a canonical table lists is what it reads as. -/
theorem readEntry_eq_iff_mem {cfg : Config} {ct : CodeTable} (h : Memory.wf cfg ct) {s : Nat} {b : Code} (hb : b ≠ []) :
    readEntry ct s = b ↔ (s, b) ∈ ct := by
  induction ct with
  | nil => simp [readEntry, Ne.symm hb]
  | cons e rest ih =>
    have hp := List.pairwise_cons.mp h.1
    have hrest : Memory.wf cfg rest := ⟨hp.2, fun f hf => h.2 f (by simp [hf])⟩
    obtain ⟨k, c⟩ := e
    simp only [readEntry, List.mem_cons, Prod.mk.injEq]
    split
    · rename_i hk
      subst hk
      constructor
      · intro hc; exact .inl ⟨rfl, hc.symm⟩
      · rintro (⟨-, hc⟩ | hm)
        · exact hc.symm
        · exact absurd (hp.1 _ hm) (by simp)
    · rename_i hk
      rw [ih hrest]
      constructor
      · exact .inr
      · rintro (⟨hs, -⟩ | hm)
        · exact absurd hs.symm hk
        · exact hm

/-- A code read from a canonical table has at most MAXLEN bits. -/
theorem readEntry_length_le {cfg : Config} {ct : CodeTable} (h : Memory.wf cfg ct) (s : Nat) :
    (readEntry ct s).length ≤ cfg.maxlen := by
  by_cases hb : readEntry ct s = []
  · simp [hb]
  · exact (h.2 _ ((readEntry_eq_iff_mem h hb).mp rfl)).2.2

end Sys2Proof.Machine
end

