-- ==== Sys2Proof/Tests/Slice0.lean ====
section
/-! SUPPORT. Tests/Slice0.lean: the well-formedness smoke, command words written out from R92, one step per command with the
expected value from the spec's vectors (named V<n>.<m> and S<n> as in 95_test_vectors.md), and a witness for every hypothesis. -/

namespace Sys2Proof.Tests

open Sys2Proof Sys2Proof.Machine Sys2Proof.Claims

/-! ### Well-formedness refuses the ill formed -/

theorem test_reference_is_valid : Config.reference.Valid := by decide
theorem test_symw_zero_refused : ¬ (⟨0, 255, 65536, 4096, 4096, 511⟩ : Config).Valid := by decide
theorem test_symw_seventeen_refused : ¬ (⟨17, 255, 65536, 4096, 4096, 511⟩ : Config).Valid := by decide
theorem test_maxlen_zero_refused : ¬ (⟨8, 0, 65536, 4096, 4096, 511⟩ : Config).Valid := by decide
theorem test_maxlen_1025_refused : ¬ (⟨8, 1025, 65536, 4096, 4096, 511⟩ : Config).Valid := by decide
theorem test_bbcap_refused : ¬ (⟨8, 255, 2147483648, 4096, 4096, 511⟩ : Config).Valid := by decide
theorem test_srccap_refused : ¬ (⟨8, 1, 65536, 2147483648, 4096, 511⟩ : Config).Valid := by decide
theorem test_srccap_times_maxlen_refused : ¬ (⟨8, 1024, 65536, 4194304, 4096, 511⟩ : Config).Valid := by decide
theorem test_dstcap_refused : ¬ (⟨8, 255, 65536, 4096, 2147483648, 511⟩ : Config).Valid := by decide
theorem test_nodecap_zero_refused : ¬ (⟨8, 255, 65536, 4096, 4096, 0⟩ : Config).Valid := by decide
theorem test_nodecap_refused : ¬ (⟨8, 255, 65536, 4096, 4096, 2147483648⟩ : Config).Valid := by decide
theorem test_c8_does_not_exist : (Reg.c 8).wellFormed Config.reference = false ∧ (Reg.c 7).wellFormed Config.reference = true := by decide
theorem test_write_of_absent_c_refused : (Statement.write (.c 8) 0).wellFormed Config.reference = false := by decide
theorem test_read_of_absent_c_refused : (Statement.read (.c 8)).wellFormed Config.reference = false := by decide
theorem test_bare_bbget_refused : (Statement.bare .bbget).wellFormed Config.reference = false := by decide
theorem test_nop_with_operand_refused : (Statement.withA0 .nop 1).wellFormed Config.reference = false := by decide
theorem test_operand_of_33_bits_refused : (Statement.withA0 .bbget 4294967296).wellFormed Config.reference = false := by decide
theorem test_negative_position_refused : (Statement.withA0 .bbget (-1)).wellFormed Config.reference = false := by decide
theorem test_length_below_signed_range_refused : (Statement.withA0 .bbcreate (-2147483649)).wellFormed Config.reference = false := by decide
theorem test_code_for_srcpush_refused : (Statement.withCode .srcpush 0 [true]).wellFormed Config.reference = false := by decide
theorem test_code_above_maxlen_refused : (Statement.withCode .ctwrite 0 [true, true, true]).wellFormed ⟨1, 2, 8, 4, 4, 8⟩ = false := by decide

/-! ### Command words, bit by bit from R90 and R92 -/

theorem test_word_system : decodeWord 0b00000000000000000000000000000001 = .ok .reset := by decide
theorem test_word_table : decodeWord 0b00000000000000000000000000001001 = .ok .ctread := by decide
theorem test_word_buffer : decodeWord 0b00000000000000000000000000010101 = .ok .bbwrbyte := by decide
theorem test_word_streams : decodeWord 0b00000000000000000000000000101000 = .ok .dstread := by decide
theorem test_word_encoder : decodeWord 0b00000000000000000000000000110001 = .ok .encode := by decide
theorem test_word_decoder : decodeWord 0b00000000000000000000000001000011 = .ok .decode := by decide
theorem test_words_all : ∀ row ∈ commandTable, decodeWord row.1 = .ok row.2 ∧ encode row.2 = row.1 := by decide +kernel
theorem test_opcodes_distinct : commandTable.Pairwise (fun a b => a.1 ≠ b.1) := by decide +kernel
/-- V1.7. -/
theorem test_words_unassigned : ([0x02, 0x07, 0x0A, 0x16, 0x24, 0x29, 0x32, 0x44, 0xFF] : List Word).map decodeWord =
    List.replicate 9 (.error .unassignedOpcode) := by rfl
/-- V1.8. -/
theorem test_words_reserved : ([0x00000100, 0x00000131, 0x80000031, 0xFFFFFFFF] : List Word).map decodeWord =
    List.replicate 4 (.error .reservedBits) := by rfl
theorem test_table_word : decodeTableWord 32 0x43 = some .decode ∧ decodeTableWord 32 0x44 = none := by decide

/-! ### One step of each command -/

/-- The state after a command (the state before it if it gave none). -/
def after (i : Instr) (s : State) : State :=
  match exec i s with
  | .next t => t
  | .fault _ => s
  | .refused _ => s

/-- The four report registers. -/
def report (s : State) : Word × BitVec 5 × Word × Bool := (s.result, s.cause, s.info, s.err)

/-- Table T1 of section 2.5. -/
def tableT1 : CodeTable := [(0x00, [true, true]), (0x61, [false]), (0x62, [true, false])]

/-- The buffer `0001011` of S1. -/
def bufferS1 : List Bool := [false, false, false, true, false, true, true]

/-- The stream of S1. -/
def streamS1 : List Symbol := [0x61, 0x61, 0x61, 0x62, 0x00]

/-- The trie of V6.16. -/
def trieT1 : Trie :=
  [⟨some 3, some 1, none⟩, ⟨some 4, some 2, none⟩, ⟨none, none, some 0x00⟩, ⟨none, none, some 0x61⟩, ⟨none, none, some 0x62⟩]

/-- The trie of V6.2. -/
def trieV62 : Trie :=
  [⟨some 1, some 2, none⟩, ⟨none, none, some 0x61⟩, ⟨some 3, some 4, none⟩, ⟨none, none, some 0x62⟩, ⟨none, none, some 0x00⟩]

/-- The eight `C` registers with `C[0]` given. -/
def c0 (w : Word) : List Word := [w, 0, 0, 0, 0, 0, 0, 0]

/-- V1.9. -/
theorem test_nop : report (after .nop (after .bbget State.reset)) = (0, 0, 0, false) := by decide
/-- V1.10. -/
theorem test_reset : after .reset { State.reset with term := 0x62, bb := bufferS1, src := streamS1, ct := tableT1, trie := trieT1, err := true }
    = State.reset := by decide
/-- V2.3. -/
theorem test_ctwrite : readEntry (after .ctwrite { State.reset with a0 := 0x00, a1 := 4, c := c0 5 }).ct 0 = [false, true, false, true] := by decide
/-- V2.10. -/
theorem test_ctwrite_code_bits : report (after .ctwrite { State.reset with a0 := 0x61, a1 := 2, c := c0 4 }) = (0, 19, 2, true) := by decide
/-- V2.1. -/
theorem test_ctread : (after .ctread { State.reset with a0 := 0x62, ct := tableT1, c := c0 9 }).c = c0 2 := by decide
/-- V2.4: a code of 33 bits, "1", 31 "0", "1". -/
theorem test_ctread_two_words :
    (after .ctread { State.reset with a0 := 0x41, ct := [(0x41, [true] ++ List.replicate 31 false ++ [true])] }).c.take 3 = [1, 1, 0] := by decide
/-- V3.1. -/
theorem test_bbcreate : (after .bbcreate { State.reset with a0 := 7, bb := [true] }).bb = List.replicate 7 false := by decide
/-- V3.5. -/
theorem test_bbcreate_negative : report (after .bbcreate { State.reset with a0 := 0x80000000 }) = (0, 2, 0x80000000, true) := by decide
/-- V3.7. -/
theorem test_bbget : report (after .bbget { State.reset with bb := bufferS1, a0 := 3 }) = (1, 0, 0, false) := by decide
theorem test_bbget_outside : report (after .bbget { State.reset with bb := bufferS1, a0 := 7 }) = (0, 3, 7, true) := by decide
/-- V3.6. -/
theorem test_bbset : (after .bbset { State.reset with bb := List.replicate 7 false, a0 := 3 }).bb = [false, false, false, true, false, false, false] := by decide
/-- V3.8. -/
theorem test_bbclear : (after .bbclear { State.reset with bb := bufferS1, a0 := 3 }).bb = [false, false, false, false, false, true, true] := by decide
/-- V3.10. -/
theorem test_bbrdbyte : report (after .bbrdbyte { State.reset with bb := bufferS1 }) = (0x16, 0, 0, false) := by decide
theorem test_bbrdbyte_exact : report (after .bbrdbyte { State.reset with bb := bufferS1, a0 := 0x20000000 }) = (0, 3, 0x20000000, true) := by decide
/-- V3.14. -/
theorem test_bbwrbyte : (after .bbwrbyte { State.reset with bb := List.replicate 12 false, a0 := 1, a1 := 0xAF }).bb =
    [false, false, false, false, false, false, false, false, true, false, true, false] := by decide
/-- V3.13: the index is checked before the value. -/
theorem test_bbwrbyte_order : report (after .bbwrbyte { State.reset with bb := bufferS1, a0 := 1, a1 := 0x100 }) = (0, 3, 1, true) := by decide
/-- R170's example. -/
theorem test_srcclear : (after .srcclear { State.reset with src := streamS1 }).src = [] := by decide
/-- V4.1. -/
theorem test_srcpush : (after .srcpush { State.reset with a0 := 0x61 }).src = [0x61] ∧ (after .srcpush { State.reset with a0 := 0x61 }).result = 1 := by decide
/-- V4.2. -/
theorem test_srcpush_symbol : report (after .srcpush { State.reset with a0 := 0x100 }) = (0, 19, 0, true) := by decide
/-- V4.6. -/
theorem test_srcterm : (after .srcterm { State.reset with src := [0x61, 0x00, 0x62] }).src = [0x61, 0x00, 0x62, 0x00] := by decide
/-- V4.4. -/
theorem test_srcterm_again : report (after .srcterm { State.reset with src := streamS1 }) = (0, 0, 0, false) := by decide
/-- V4.1. -/
theorem test_srcread : report (after .srcread { State.reset with src := [0x61] }) = (0x61, 0, 0, false) := by decide
/-- V4.10. -/
theorem test_dstread : report (after .dstread { State.reset with dst := streamS1, a0 := 3 }) = (0x62, 0, 0, false) := by decide
theorem test_dstread_outside : report (after .dstread { State.reset with dst := streamS1, a0 := 5 }) = (0, 3, 5, true) := by decide
/-- V5.2. -/
theorem test_encsize : report (after .encsize { State.reset with ct := tableT1, src := streamS1 }) = (7, 0, 0, false) := by decide
/-- V5.3. -/
theorem test_encsize_unknown : report (after .encsize { State.reset with ct := tableT1, src := [0x61, 0x63] }) = (0, 4, 1, true) := by decide
/-- V5.2. -/
theorem test_encode : (after .encode { State.reset with ct := tableT1, src := streamS1, bb := [true] }).bb = bufferS1 := by decide
/-- V5.5. -/
theorem test_encode_unknown : (after .encode { State.reset with ct := tableT1, src := [0x62, 0x63], bb := bufferS1 }).bb = bufferS1 := by decide
/-- V6.27. -/
theorem test_trieclear : (after .trieclear { State.reset with trie := trieT1 }).trie = [⟨none, none, none⟩] := by decide
/-- V6.2, its third step. -/
theorem test_trieadd : (after .trieadd { State.reset with a0 := 0x00, a1 := 2, c := c0 3, trie := trieV62.set 2 ⟨some 3, none, none⟩ |>.take 4 }).trie = trieV62 := by decide
/-- V6.4, case (i). -/
theorem test_trieadd_conflict : report (after .trieadd { State.reset with a0 := 0x63, a1 := 3, c := c0 4, trie := trieV62 }) = (0, 5, 0x63, true) := by decide
/-- V6.16. -/
theorem test_triebuild : (after .triebuild { State.reset with ct := tableT1, trie := trieV62 }).trie = trieT1 := by decide +kernel
/-- V6.20. -/
theorem test_triebuild_conflict :
    report (after .triebuild { State.reset with ct := [(0x10, [false, false]), (0x20, [true]), (0x30, [false, false, true]), (0x40, [true])] })
      = (0, 5, 0x30, true) := by decide +kernel
/-- S1. -/
theorem test_decode : (after .decode { State.reset with trie := trieT1, bb := bufferS1 }).dst = streamS1 := by decide
/-- S2. -/
theorem test_decode_cut : report (after .decode { State.reset with trie := trieT1, bb := [false, false, false, true, false, true] }) = (0, 6, 5, true) := by decide

/-! ### The port and the host side -/

/-- V1.1. -/
theorem test_read_after_reset : [0x000, 0x001, 0x002, 0x003, 0x00B, 0x00C].map (hostRead State.reset) = [0x48424331, 0, 0, 0, 0, 1] := by decide
/-- V1.2. -/
theorem test_read_parameters : [0x010, 0x011, 0x012, 0x013, 0x014, 0x015].map (hostRead State.reset) = [8, 255, 65536, 4096, 4096, 511] := by decide
/-- V1.3. -/
theorem test_read_unmapped : [0x00D, 0x016, 0x01F, 0x028, 0x3FF].map (hostRead { State.reset with c := List.replicate 8 7 }) = [0, 0, 0, 0, 0] := by decide
/-- V1.5. -/
theorem test_write_term : step { State.reset with port := [.hostWrite 0x008 0x00000141] } = .next { State.reset with term := 0x41 } := by rfl
/-- V1.4. -/
theorem test_write_read_only : step { State.reset with port := [.hostWrite 0x00C 7] } = .next State.reset := by rfl
/-- V1.8: 0x00000131 is not ENCODE. -/
theorem test_write_illegal : step { State.reset with port := [.hostWrite 0x001 0x00000131] } =
    .next { State.reset with cause := 16, info := 0x00000131, err := true } := by rfl
/-- The word placed by `withFetchWord` is the one the very next step runs. -/
theorem test_fetch_word : step (State.reset.withFetchWord 32 0x22) = exec .srcterm State.reset := by rfl
/-- V2.1: `CTWRITE 0x62, "10"` is `W A0`, `W A1`, eight `W C[k]` and `W CMD`. -/
theorem test_statement : expandStatement Config.reference (.withCode .ctwrite 0x62 [true, false]) =
    [.hostWrite 0x006 0x62, .hostWrite 0x007 2, .hostWrite 0x020 2, .hostWrite 0x021 0, .hostWrite 0x022 0, .hostWrite 0x023 0,
     .hostWrite 0x024 0, .hostWrite 0x025 0, .hostWrite 0x026 0, .hostWrite 0x027 0, .hostWrite 0x001 0x00000008] := by decide
/-- S1: the table of the worked example. -/
theorem test_code_builder : (analyze streamS1).map buildTable = .ok [(0x00, [true, true]), (0x61, [false]), (0x62, [true, false])] := by decide
/-- S5: a single symbol gets the code "0". -/
theorem test_code_builder_single : (analyze [0x61, 0x61, 0x61]).map buildTable = .ok [(0x61, [false])] := by decide

/-- S1 as the source's exchange string (R158). -/
theorem test_to_bit_string : toBitString bufferS1 = ['0', '0', '0', '1', '0', '1', '1'] := by decide

/-- What a macro gives the host, issued in a state. -/
def given (s : State) (p : Pseudo) : Option MacroResult :=
  match runPseudo s p with
  | .next (_, given) => some given
  | .fault _ => none
  | .refused _ => none

/-- S1: TOBITSTRING reads the length and then the bits (R101). -/
theorem test_macro_toBitString : given { State.reset with bb := bufferS1 } .toBitString =
    some (.bitString ['0', '0', '0', '1', '0', '1', '1']) := by rfl
/-- S1: READOUT gives the symbols that were decoded (R101). -/
theorem test_macro_readOut : given { State.reset with dst := streamS1 } .readOut = some (.symbols [0x61, 0x61, 0x61, 0x62, 0x00]) := by rfl
/-- R101: CHECK gives STATUS, CAUSE, INFO and RESULT, here those of an UnknownSymbolError at index 0. -/
theorem test_macro_check : given { State.reset with cause := 4, info := 0, err := true } .check = some (.report [1, 4, 0, 0]) := by rfl

/-! ### Witnesses: a state and operands that meet each statement's hypotheses -/

/-- A small legal instance: two symbols, codes of at most two bits, one `C` register. -/
def mini : State := State.resetOf ⟨1, 2, 8, 4, 4, 8⟩

/-- The trie of the codes "0" (symbol 1) alone. -/
def trieOne : Trie := [⟨some 1, none, none⟩, ⟨none, none, some 1⟩]

/-- The trie of the codes "0" (symbol 1) and "10" (symbol 0). -/
def trieTwo : Trie := [⟨some 1, some 2, none⟩, ⟨none, none, some 1⟩, ⟨some 3, none, none⟩, ⟨none, none, some 0⟩]

theorem trieOne_inv (cap : Nat) (h : 2 ≤ cap) : TrieInv ⟨1, 2, 8, 4, 4, cap⟩ trieOne :=
  insertCode_keeps_trieInv (cfg := ⟨1, 2, 8, 4, 4, cap⟩) (t := rootAlone) (sym := 1) (b := [false]) (trieInv_rootAlone (by simpa using Nat.le_of_succ_le h))
    (by decide) (show 1 < 2 ^ 1 by decide) (by
      have h1 : ¬ 1 = cap := by omega
      simp [insertCode, insertFrom, rootAlone, nodeAt, childOf, Node.empty, growChild, withChild, placeLeaf, h1, trieOne])

theorem trieTwo_inv : TrieInv mini.cfg trieTwo :=
  insertCode_keeps_trieInv (cfg := mini.cfg) (t := trieOne) (sym := 0) (b := [true, false]) (trieOne_inv 8 (by decide)) (by decide) (by decide) (by decide)

/-- The only leaf of `trieOne` is at "0". -/
theorem trieOne_leaf {q : Code} {x : Symbol} (h : leafAt trieOne q = some x) : q = [false] := by
  rcases q with _ | ⟨b, _ | ⟨d, r⟩⟩
  · cases h
  · cases b
    · rfl
    · cases h
  · cases b <;> cases d <;> cases h

/-- A legal state with something in every memory and a write waiting at the port. -/
def busy : State :=
  { mini with
    a0 := 1, a1 := 2, c := [3], ct := [(0, [true, false]), (1, [false])], bb := [false, true, false], src := [1, 0], dst := [1], trie := trieTwo,
    port := [.hostWrite 0x001 0x00000043] }

/-- Every symbol of a list has an entry, in the shape that `decide` evaluates (`decide` would try a `∀` over all words). -/
theorem allCoded_of {ct : CodeTable} {l : List Symbol} (h : l.all (fun sym => decide (readEntry ct sym.toNat ≠ [])) = true) : AllCoded ct l :=
  fun sym hs => of_decide_eq_true (List.all_eq_true.mp h sym hs)

/-- Every symbol of a list is below a bound, in the shape that `decide` evaluates. -/
theorem symbols_of {n : Nat} {l : List Symbol} (h : l.all (fun sym => decide (sym.toNat < n)) = true) : ∀ sym ∈ l, sym.toNat < n :=
  fun sym hs => of_decide_eq_true (List.all_eq_true.mp h sym hs)

theorem busy_inv : busy.Inv :=
  ⟨by decide, by decide, by decide, by decide, by decide, by decide, by decide, by decide, by decide, by decide, by decide,
   symbols_of (by decide), symbols_of (by decide), trieTwo_inv⟩

/-- `PrefixFreeBelow` in the shape that `decide` evaluates. -/
theorem prefixFree_of {ct : CodeTable} {m : Nat}
    (h : ∀ a < m, ∀ b < m, a ≠ b ∧ readEntry ct a ≠ [] ∧ readEntry ct b ≠ [] → ¬ comparable (readEntry ct a) (readEntry ct b)) :
    PrefixFreeBelow ct m := fun a ha b hb hab h1 h2 => h a ha b hb ⟨hab, h1, h2⟩

theorem witness_DecodeAcceptsExactlyTheEncodedWord : (0x31 : Word) = encode .encode ∧ (0x30 : Word) ≠ encode .encode ∧ Instr.encode.WellFormed := by decide
theorem witness_IllegalWordsAreRejectedByName : 256 ≤ (0x100 : Word).toNat ∧ (0xFF : Word).toNat < 256 ∧ (0xFF : Word) ∉ commandTable.map (·.1) := by decide
theorem witness_StepRunsTheDecodedCommand : mini.cfg.Valid ∧ { mini with port := [.hostWrite 0x001 0x31] }.port = .hostWrite 0x001 0x31 :: [] ∧
    decodeWord 0x31 = .ok .encode := by decide
theorem witness_IllegalCommandReportsAndChangesNothingElse : mini.cfg.Valid ∧
    (0x00000100 : Word).extractLsb' 8 24 ≠ 0 ∧ (∀ row ∈ commandTable, row.1.extractLsb' 0 8 ≠ (0x00000044 : Word).extractLsb' 0 8) ∧
    (∃ row ∈ commandTable, (0x43 : Word).extractLsb' 8 24 = 0 ∧ row.1.extractLsb' 0 8 = (0x43 : Word).extractLsb' 0 8) := by decide +kernel
theorem witness_HostReadReturnsTheRegisterAndChangesNothing : State.reset.cfg.Valid ∧
    (∃ s : State, s.cfg.Valid ∧ s.port = .hostRead 0x027 :: []) ∧
    (0x027 : BitVec 10).toNat = 0x020 + 7 ∧ 7 < State.reset.cfg.cw ∧ (0x020 : BitVec 10).toNat = 0x020 + 0 ∧
    (∀ n ∈ ([0x00D, 0x00F, 0x016, 0x01F, 0x028, 0x3FF] : List Nat), n < 2 ^ 10 ∧ ¬ mapped State.reset.cfg n) :=
  ⟨by decide, ⟨{ State.reset with port := [.hostRead 0x027] }, by decide⟩, by decide⟩
theorem witness_HostWriteStoresOnlyInWritableRegisters :
    (∃ s : State, s.cfg.Valid ∧ s.port = .hostWrite 0x027 5 :: []) ∧ (0x027 : BitVec 10).toNat = 0x020 + 7 ∧ 7 < State.reset.cfg.cw ∧
    (0x001 : BitVec 10).toNat = 1 ∧ (0x006 : BitVec 10).toNat = 6 ∧ (0x007 : BitVec 10).toNat = 7 ∧ (0x008 : BitVec 10).toNat = 8 ∧
    (∀ n ∈ ([0x000, 0x002, 0x009, 0x01F, 0x028, 0x3FF] : List Nat), n < 2 ^ 10 ∧ n ≠ 0x001 ∧ n ≠ 0x006 ∧ n ≠ 0x007 ∧ n ≠ 0x008 ∧
      ¬ (0x020 ≤ n ∧ n < 0x020 + State.reset.cfg.cw)) :=
  ⟨⟨{ State.reset with port := [.hostWrite 0x027 5] }, by decide⟩, by decide⟩
theorem witness_StepWaitsWithNothingAtThePort : mini.cfg.Valid ∧ mini.port = [] := by decide
theorem witness_StepRefusesAnInvalidConfiguration : ∃ s : State, ¬ s.cfg.Valid := ⟨State.resetOf ⟨8, 255, 65536, 4096, 4096, 0⟩, by decide⟩
theorem witness_BothResetsGiveTheResetState : busy.cfg.Valid := by decide
theorem witness_ParametersNeverChange : ∃ s t : State, step s = .next t := ⟨mini, mini, rfl⟩
theorem witness_ResetStateHasTheStatedValues : Config.reference.Valid ∧ 7 < Config.reference.cw := by decide
theorem witness_CtwriteStoresOneEntry :
    (∃ s : State, s.cfg.nsym ≤ s.a0.toNat) ∧
    (∃ s : State, s.a0.toNat < s.cfg.nsym ∧ s.cfg.maxlen < s.a1.toNat) ∧
    (∃ s : State, s.a0.toNat < s.cfg.nsym ∧ s.a1.toNat ≤ s.cfg.maxlen ∧ 2 ^ s.a1.toNat ≤ operandValue s) ∧
    (∃ s : State, s.a0.toNat < s.cfg.nsym ∧ s.a1.toNat ≤ s.cfg.maxlen ∧ operandValue s < 2 ^ s.a1.toNat) :=
  ⟨⟨{ mini with a0 := 2 }, by decide⟩, ⟨{ mini with a0 := 1, a1 := 3 }, by decide⟩, ⟨{ mini with a0 := 1, a1 := 2, c := [4] }, by decide⟩,
   ⟨{ mini with a0 := 1, a1 := 2, c := [3] }, by decide⟩⟩
theorem witness_CtreadReturnsTheEntry : (∃ s : State, s.cfg.nsym ≤ s.a0.toNat) ∧ (∃ s : State, s.a0.toNat < s.cfg.nsym ∧ 0 < s.cfg.cw) :=
  ⟨⟨{ mini with a0 := 2 }, by decide⟩, ⟨{ mini with a0 := 1 }, by decide⟩⟩
theorem witness_CtreadAfterCtwriteReturnsTheOperand :
    busy.c.length = busy.cfg.cw ∧ busy.a0.toNat < busy.cfg.nsym ∧ busy.a1.toNat ≤ busy.cfg.maxlen ∧ operandValue busy < 2 ^ busy.a1.toNat := by decide
theorem witness_CanonicalTablesWithEqualEntriesAreEqual :
    Memory.wf busy.cfg busy.ct ∧ (∀ sym < busy.cfg.nsym, readEntry busy.ct sym = readEntry busy.ct sym) := by decide
theorem witness_BbcreateMakesAZeroedBuffer : (∃ s : State, s.a0.toInt < 0) ∧ (∃ s : State, 0 ≤ s.a0.toInt ∧ (s.cfg.bbCap : Int) < s.a0.toInt) ∧
    (∃ s : State, 0 ≤ s.a0.toInt ∧ s.a0.toInt ≤ (s.cfg.bbCap : Int)) :=
  ⟨⟨{ mini with a0 := 0x80000000 }, by decide +kernel⟩, ⟨{ mini with a0 := 9 }, by decide +kernel⟩, ⟨{ mini with a0 := 8 }, by decide +kernel⟩⟩
theorem witness_BbgetReturnsTheBit : (∃ s : State, s.bb.length ≤ s.a0.toNat) ∧ (∃ (s : State) (bit : Bool), s.bb[s.a0.toNat]? = some bit) :=
  ⟨⟨{ mini with bb := [true], a0 := 1 }, by decide⟩, ⟨{ mini with bb := [true] }, true, by decide⟩⟩
theorem witness_BbsetSetsOneBit : (∃ s : State, s.bb.length ≤ s.a0.toNat) ∧ (∃ s : State, s.a0.toNat < s.bb.length) :=
  ⟨⟨{ mini with bb := [true], a0 := 1 }, by decide⟩, ⟨{ mini with bb := [true] }, by decide⟩⟩
theorem witness_BbclearClearsOneBit : (∃ s : State, s.bb.length ≤ s.a0.toNat) ∧ (∃ s : State, s.a0.toNat < s.bb.length) :=
  ⟨⟨{ mini with bb := [true], a0 := 1 }, by decide⟩, ⟨{ mini with bb := [true] }, by decide⟩⟩
theorem witness_BbrdbytePacksEightPositions : (∃ s : State, s.bb.length ≤ 8 * s.a0.toNat) ∧ (∃ s : State, 8 * s.a0.toNat < s.bb.length) :=
  ⟨⟨{ mini with bb := List.replicate 8 true, a0 := 1 }, by decide +kernel⟩, ⟨{ mini with bb := [true] }, by decide +kernel⟩⟩
theorem witness_BbwrbyteWritesEightPositions : (∃ s : State, s.bb.length ≤ 8 * s.a0.toNat) ∧
    (∃ s : State, 8 * s.a0.toNat < s.bb.length ∧ 255 < s.a1.toNat) ∧ (∃ s : State, 8 * s.a0.toNat < s.bb.length ∧ s.a1.toNat ≤ 255) :=
  ⟨⟨{ mini with bb := List.replicate 8 true, a0 := 1 }, by decide +kernel⟩, ⟨{ mini with bb := [true], a1 := 256 }, by decide +kernel⟩,
   ⟨{ mini with bb := [true], a1 := 255 }, by decide +kernel⟩⟩
theorem witness_ByteWrittenReadsBack : ∃ s : State, 8 * s.a0.toNat < s.bb.length ∧ s.a1.toNat ≤ 255 :=
  ⟨{ mini with bb := [true, false, true], a1 := 255 }, by decide⟩
theorem witness_BufferLengthIsFixedBetweenCreations : ∃ s t : State, exec .bbset s = .next t ∧
    Instr.bbset ∉ ([.bbcreate, .encode, .reset] : List Instr) := ⟨{ mini with bb := [false] }, _, rfl, by decide⟩
theorem witness_SrcpushAppendsOneSymbol : (∃ s : State, s.cfg.nsym ≤ s.a0.toNat) ∧
    (∃ s : State, s.a0.toNat < s.cfg.nsym ∧ s.src.length = s.cfg.srcCap) ∧ (∃ s : State, s.a0.toNat < s.cfg.nsym ∧ s.src.length ≠ s.cfg.srcCap) :=
  ⟨⟨{ mini with a0 := 2 }, by decide⟩, ⟨{ mini with a0 := 1, src := [0, 0, 0, 0] }, by decide⟩, ⟨{ mini with a0 := 1, src := [0, 0, 0] }, by decide⟩⟩
theorem witness_SrctermAppendsTheTerminator : (∃ s : State, ∃ front, s.src = front ++ [s.term]) ∧
    (∃ s : State, (¬ ∃ front, s.src = front ++ [s.term]) ∧ s.src.length = s.cfg.srcCap) ∧
    (∃ s : State, (¬ ∃ front, s.src = front ++ [s.term]) ∧ s.src.length ≠ s.cfg.srcCap) :=
  ⟨⟨{ mini with src := [1, 0] }, [1], rfl⟩,
   ⟨{ mini with src := [0, 0, 0, 1] }, fun h => absurd (List.getLast?_eq_some_iff.mpr h) (by decide), by decide⟩,
   ⟨mini, fun h => absurd (List.getLast?_eq_some_iff.mpr h) (by decide), by decide⟩⟩
theorem witness_SrctermTwiceAppendsAtMostOnce : ∃ s t : State, exec .srcterm s = .next t ∧ t.err = false := ⟨mini, _, rfl, by decide⟩
theorem witness_SrcreadReturnsTheSymbol : (∃ s : State, s.src.length ≤ s.a0.toNat) ∧ (∃ (s : State) (sym : Symbol), s.src[s.a0.toNat]? = some sym) :=
  ⟨⟨{ mini with src := [1], a0 := 1 }, by decide⟩, ⟨{ mini with src := [1] }, 1, by decide⟩⟩
theorem witness_DstreadReturnsTheSymbol : (∃ s : State, s.dst.length ≤ s.a0.toNat) ∧ (∃ (s : State) (sym : Symbol), s.dst[s.a0.toNat]? = some sym) :=
  ⟨⟨{ mini with dst := [1], a0 := 1 }, by decide⟩, ⟨{ mini with dst := [1] }, 1, by decide⟩⟩
theorem witness_EncsizeSumsTheCodeLengths :
    (∃ (s : State) (front : List Symbol) (sym : Symbol) (rest : List Symbol),
      s.src = front ++ sym :: rest ∧ AllCoded s.ct front ∧ readEntry s.ct sym.toNat = []) ∧ AllCoded busy.ct busy.src :=
  ⟨⟨{ mini with src := [1, 0], ct := [(1, [false])] }, [1], 0, [], rfl, allCoded_of (by decide), by decide⟩, allCoded_of (by decide)⟩
theorem witness_EncodeLeavesTheConcatenatedCodes :
    (∃ (s : State) (front : List Symbol) (sym : Symbol) (rest : List Symbol),
      s.src = front ++ sym :: rest ∧ AllCoded s.ct front ∧ readEntry s.ct sym.toNat = []) ∧
    (∃ s : State, AllCoded s.ct s.src ∧ s.cfg.bbCap < (message s.ct s.src).length) ∧
    (∃ s : State, AllCoded s.ct s.src ∧ (message s.ct s.src).length ≤ s.cfg.bbCap) :=
  ⟨⟨{ mini with src := [1, 0], ct := [(1, [false])] }, [1], 0, [], rfl, allCoded_of (by decide), by decide⟩,
   ⟨{ State.resetOf ⟨1, 2, 2, 4, 4, 8⟩ with src := [1, 0], ct := busy.ct }, allCoded_of (by decide), by decide⟩,
   ⟨{ State.resetOf ⟨1, 2, 3, 4, 4, 8⟩ with src := [1, 0], ct := busy.ct }, allCoded_of (by decide), by decide⟩⟩
theorem witness_EncodedSizeFitsTheResultRegister : busy.Inv := busy_inv
theorem witness_TrieaddChecksItsOperandsInOrder :
    (∃ s : State, s.cfg.nsym ≤ s.a0.toNat) ∧
    (∃ s : State, s.a0.toNat < s.cfg.nsym ∧ s.cfg.maxlen < s.a1.toNat) ∧
    (∃ s : State, s.a0.toNat < s.cfg.nsym ∧ s.a1.toNat ≤ s.cfg.maxlen ∧ 2 ^ s.a1.toNat ≤ operandValue s) ∧
    (∃ s : State, s.a0.toNat < s.cfg.nsym ∧ s.a1.toNat = 0 ∧ operandValue s = 0) :=
  ⟨⟨{ mini with a0 := 2 }, by decide⟩, ⟨{ mini with a0 := 1, a1 := 3 }, by decide⟩, ⟨{ mini with a0 := 1, a1 := 0, c := [1] }, by decide⟩,
   ⟨{ mini with a0 := 1 }, by decide⟩⟩
theorem witness_TrieaddAddsExactlyOneLeaf :
    (∃ (s : State) (b : Code), TrieInv s.cfg s.trie ∧ (s.a0.toNat < s.cfg.nsym ∧ b.length ≤ s.cfg.maxlen ∧ b ≠ [] ∧ s.a1.toNat = b.length ∧
      operandValue s = codeValue b) ∧ leafAt s.trie b = some s.a0) ∧
    (∃ (s : State) (b : Code), TrieInv s.cfg s.trie ∧ (s.a0.toNat < s.cfg.nsym ∧ b.length ≤ s.cfg.maxlen ∧ b ≠ [] ∧ s.a1.toNat = b.length ∧
      operandValue s = codeValue b) ∧ (∀ q x, leafAt s.trie q = some x → ¬ comparable q b) ∧
      s.trie.length + missingNodes s.trie 0 b ≤ s.cfg.nodeCap) :=
  ⟨⟨{ mini with a0 := 1, a1 := 1, c := [0], trie := trieTwo }, [false], trieTwo_inv, by decide, by decide⟩,
   ⟨{ State.resetOf ⟨1, 2, 8, 4, 4, 4⟩ with a0 := 0, a1 := 2, c := [2], trie := trieOne }, [true, false], trieOne_inv 4 (by decide), by decide,
    fun q x h => by rw [trieOne_leaf h]; decide, by decide⟩⟩
theorem witness_TrieaddFaultsLeaveTheTrie :
    (∃ (s : State) (b q : Code) (x : Symbol), TrieInv s.cfg s.trie ∧ (s.a0.toNat < s.cfg.nsym ∧ b.length ≤ s.cfg.maxlen ∧ b ≠ [] ∧
      s.a1.toNat = b.length ∧ operandValue s = codeValue b) ∧ leafAt s.trie q = some x ∧ comparable q b ∧ ¬ (q = b ∧ x = s.a0)) ∧
    (∃ (s : State) (b : Code), TrieInv s.cfg s.trie ∧ (s.a0.toNat < s.cfg.nsym ∧ b.length ≤ s.cfg.maxlen ∧ b ≠ [] ∧ s.a1.toNat = b.length ∧
      operandValue s = codeValue b) ∧ (∀ q x, leafAt s.trie q = some x → ¬ comparable q b) ∧
      s.cfg.nodeCap < s.trie.length + missingNodes s.trie 0 b) :=
  ⟨⟨{ mini with a0 := 0, a1 := 1, c := [0], trie := trieTwo }, [false], [false], 1, trieTwo_inv, by decide, by decide⟩,
   ⟨{ State.resetOf ⟨1, 2, 8, 4, 4, 3⟩ with a0 := 0, a1 := 2, c := [2], trie := trieOne }, [true, false], trieOne_inv 3 (by decide), by decide,
    fun q x h => by rw [trieOne_leaf h]; decide, by decide⟩⟩
theorem witness_TriebuildHoldsExactlyTheTable : ∃ s : State, s.cfg.Valid ∧ PrefixFreeBelow s.ct s.cfg.nsym ∧
    trieSize (codesOf s.ct (List.range s.cfg.nsym)) ≤ s.cfg.nodeCap :=
  ⟨{ State.resetOf ⟨1, 2, 8, 4, 4, 4⟩ with ct := busy.ct }, by decide, prefixFree_of (by decide), by decide⟩
theorem witness_TriebuildFaultsAtTheFirstFailingSymbol :
    (∃ (s : State) (m : Nat), s.cfg.Valid ∧ m < s.cfg.nsym ∧ readEntry s.ct m ≠ [] ∧ PrefixFreeBelow s.ct m ∧
      trieSize (codesOf s.ct (List.range m)) ≤ s.cfg.nodeCap ∧
      (∃ a < m, readEntry s.ct a ≠ [] ∧ comparable (readEntry s.ct a) (readEntry s.ct m))) ∧
    (∃ (s : State) (m : Nat), s.cfg.Valid ∧ m < s.cfg.nsym ∧ readEntry s.ct m ≠ [] ∧ PrefixFreeBelow s.ct m ∧
      trieSize (codesOf s.ct (List.range m)) ≤ s.cfg.nodeCap ∧ PrefixFreeBelow s.ct (m + 1) ∧
      s.cfg.nodeCap < trieSize (codesOf s.ct (List.range (m + 1)))) :=
  ⟨⟨{ mini with ct := [(0, [false]), (1, [false, true])] }, 1, by decide, by decide, by decide, prefixFree_of (by decide), by decide, by decide⟩,
   ⟨{ State.resetOf ⟨1, 2, 8, 4, 4, 3⟩ with ct := busy.ct }, 1, by decide, by decide, by decide, prefixFree_of (by decide), by decide,
    prefixFree_of (by decide), by decide⟩⟩
theorem witness_DecodeWalksTheTrie :
    (∃ (s : State) (pairs : List (Code × Symbol)), TrieInv s.cfg s.trie ∧ ((∀ e ∈ pairs, leafAt s.trie e.1 = some e.2) ∧
      pairs.length ≤ s.cfg.dstCap) ∧ s.bb = pairs.flatMap (·.1)) ∧
    (∃ (s : State) (pairs : List (Code × Symbol)) (tail : Code) (n : Nat), TrieInv s.cfg s.trie ∧
      ((∀ e ∈ pairs, leafAt s.trie e.1 = some e.2) ∧ pairs.length ≤ s.cfg.dstCap) ∧ s.bb = pairs.flatMap (·.1) ++ tail ∧ tail ≠ [] ∧
      followPath s.trie 0 tail = some n ∧ (nodeAt s.trie n).leaf = none) ∧
    (∃ (s : State) (pairs : List (Code × Symbol)) (tail : Code) (bit : Bool) (rest : Code) (n : Nat), TrieInv s.cfg s.trie ∧
      ((∀ e ∈ pairs, leafAt s.trie e.1 = some e.2) ∧ pairs.length ≤ s.cfg.dstCap) ∧ s.bb = pairs.flatMap (·.1) ++ tail ++ bit :: rest ∧
      followPath s.trie 0 tail = some n ∧ (nodeAt s.trie n).leaf = none ∧ childOf (nodeAt s.trie n) bit = none) ∧
    (∃ (s : State) (pairs : List (Code × Symbol)) (code : Code) (sym : Symbol) (rest : Code), TrieInv s.cfg s.trie ∧
      ((∀ e ∈ pairs, leafAt s.trie e.1 = some e.2) ∧ pairs.length ≤ s.cfg.dstCap) ∧ s.bb = pairs.flatMap (·.1) ++ code ++ rest ∧
      leafAt s.trie code = some sym ∧ pairs.length = s.cfg.dstCap) :=
  ⟨⟨busy, [([false], 1), ([true, false], 0)], trieTwo_inv, by decide⟩,
   ⟨{ busy with bb := [false, true] }, [([false], 1)], [true], 2, trieTwo_inv, by decide⟩,
   ⟨{ busy with bb := [false, true, true, false] }, [([false], 1)], [true], true, [false], 2, trieTwo_inv, by decide⟩,
   ⟨{ busy with bb := [false, false, false, false, true, false] }, List.replicate 4 ([false], 1), [true, false], 0, [], trieTwo_inv, by decide⟩⟩
theorem witness_RoundTripGivesTheStreamBack : ∃ s : State, s.cfg.Valid ∧ PrefixFreeBelow s.ct s.cfg.nsym ∧ (∀ sym ∈ s.src, sym.toNat < s.cfg.nsym) ∧
    AllCoded s.ct s.src ∧ (message s.ct s.src).length ≤ s.cfg.bbCap ∧
    trieSize (codesOf s.ct (List.range s.cfg.nsym)) ≤ s.cfg.nodeCap ∧ s.src.length ≤ s.cfg.dstCap :=
  ⟨{ State.resetOf ⟨1, 2, 3, 2, 2, 4⟩ with ct := busy.ct, src := [1, 0] }, by decide, prefixFree_of (by decide), symbols_of (by decide),
   allCoded_of (by decide), by decide⟩
theorem witness_CommandsKeepTheOperandRegisters : ∃ t : State, exec .decode busy = .next t ∧ Instr.decode ≠ .reset ∧ Instr.decode ≠ .ctread :=
  ⟨_, rfl, by decide⟩
theorem witness_MemoriesChangeOnlyByTheirCommands : ∃ t : State, exec .bbget busy = .next t ∧ Instr.bbget ∉ ([.ctwrite, .reset] : List Instr) ∧
    Instr.bbget ∉ ([.bbcreate, .bbset, .bbclear, .bbwrbyte, .encode, .reset] : List Instr) ∧
    Instr.bbget ∉ ([.srcclear, .srcpush, .srcterm, .reset] : List Instr) ∧ Instr.bbget ∉ ([.decode, .reset] : List Instr) ∧
    Instr.bbget ∉ ([.trieclear, .trieadd, .triebuild, .reset] : List Instr) := ⟨_, rfl, by decide⟩
theorem witness_FaultsChangeOnlyTheReport :
    (∃ s t : State, exec .decode s = .next t ∧ t.err = true) ∧ (∃ s t : State, exec .triebuild s = .next t ∧ t.err = true) ∧
    (∃ s t : State, exec .ctread s = .next t ∧ t.err = true) :=
  ⟨⟨{ mini with bb := [true] }, _, rfl, by decide⟩, ⟨{ mini with ct := [(0, [false]), (1, [false])] }, _, rfl, by decide⟩,
   ⟨{ mini with a0 := 2 }, _, rfl, by decide⟩⟩
theorem witness_RepeatedFaultIsTheSameFault : ∃ s t : State, exec .decode s = .next t ∧ t.err = true := ⟨{ mini with bb := [true] }, _, rfl, by decide⟩
theorem witness_ReportRegistersAgree : (∃ s t : State, exec .bbget s = .next t ∧ t.cause ≠ 0) ∧ (∃ s t : State, exec .bbget s = .next t ∧ t.cause = 0) :=
  ⟨⟨mini, _, rfl, by decide⟩, ⟨{ mini with bb := [true] }, _, rfl, by decide⟩⟩
theorem witness_EachCauseComesOnlyFromItsCommands : ∃ s t : State, exec .bbcreate s = .next t ∧ t.cause = 2 := ⟨{ mini with a0 := 0xFFFFFFFF }, _, rfl, by decide⟩
theorem witness_EmptyStreamErrorIsNeverRaised : (∃ s t : State, exec .encode s = .next t) ∧ mini.src = [] ∧ mini.bb = [] := ⟨⟨mini, _, rfl⟩, rfl, rfl⟩
theorem witness_InvariantHoldsAfterReset : (⟨16, 1024, 0, 0, 0, 1⟩ : Config).Valid := by decide
theorem witness_InvariantIsKeptByEveryStep : ∃ s t : State, s.Inv ∧ step s = .next t := ⟨busy, _, busy_inv, rfl⟩
theorem witness_TrieIsATreeWithPrefixFreeLeaves : TrieInv mini.cfg trieTwo ∧ leafAt trieTwo [true, false] = some 0 ∧ [true, false] <+: [true, false] :=
  ⟨trieTwo_inv, by decide⟩
theorem witness_CtwriteStatementStoresItsCode : ∃ (s : State) (sym : Symbol) (bits : Code), s.Inv ∧ (sym.toNat < s.cfg.nsym ∧ bits.length ≤ s.cfg.maxlen ∧
    s.port = expandStatement s.cfg (.withCode .ctwrite sym bits)) :=
  ⟨{ busy with port := expandStatement mini.cfg (.withCode .ctwrite 1 [true, true]) }, 1, [true, true], { busy_inv with }, by decide⟩
theorem witness_LoadbitsMacroLeavesItsBits : ∃ (s : State) (bits : Code), s.Inv ∧ bits.length ≤ s.cfg.bbCap :=
  ⟨busy, [true, false, true, false, true, false, true, true], busy_inv, by decide⟩
theorem witness_BuiltTablesArePrefixFree : ∃ table, analyze [1, 0, 1] = .ok table ∧ ∃ e ∈ buildTable table, ∃ f ∈ buildTable table, e.1 ≠ f.1 :=
  ⟨[(0, 1), (1, 2)], by decide⟩
theorem witness_BuiltCodesAreShort : ∃ table, analyze [1, 0, 1] = .ok table ∧ 2 ≤ table.length := ⟨[(0, 1), (1, 2)], by decide⟩
theorem witness_BuiltTablesAreComplete : ∃ table, analyze [1, 0, 1] = .ok table ∧ 2 ≤ table.length := ⟨[(0, 1), (1, 2)], by decide⟩

end Sys2Proof.Tests
end

/-! The scope rules (00_scope.md): no wrap of the encoder's total (R5, R8, R186), and the refusal of a configuration that breaks R4 (R5). -/

namespace Sys2Proof.Machine

/-- Each symbol of the stream adds at most MAXLEN bits to the message (R41, R96). -/
theorem message_length_le {cfg : Config} {ct : CodeTable} (h : Memory.wf cfg ct) (stream : List Symbol) :
    (message ct stream).length ≤ stream.length * cfg.maxlen := by
  have hcode : ∀ n ∈ stream.map (fun sym => (readEntry ct sym.toNat).length), n ≤ cfg.maxlen :=
    List.forall_mem_map.mpr fun sym _ => readEntry_length_le h sym.toNat
  simpa [message_length_eq_sum] using List.sum_le_card_nsmul _ _ hcode

/-- R4's joint bound on SRC_CAP and MAXLEN, from which R8 concludes that the total of R186 does not wrap. -/
theorem Config.Valid.srcCap_mul_maxlen_lt {cfg : Config} (h : cfg.Valid) : cfg.srcCap * cfg.maxlen < 2 ^ 32 := by
  obtain ⟨-, -, -, ⟨-, hmul⟩, -, -⟩ := h
  exact hmul

/-- Settles O35: the source has at most SRC_CAP symbols of at most MAXLEN bits each, and R4 bounds that product. -/
theorem encodedSizeFitsTheResultRegister : Obligations.EncodedSizeFitsTheResultRegister := by
  intro s hs
  have hbound : (message s.ct s.src).length ≤ s.cfg.srcCap * s.cfg.maxlen :=
    calc (message s.ct s.src).length ≤ s.src.length * s.cfg.maxlen := message_length_le hs.table s.src
      _ ≤ s.cfg.srcCap * s.cfg.maxlen := Nat.mul_le_mul_right _ hs.srcFits
  exact ⟨hbound, hbound.trans_lt (Config.Valid.srcCap_mul_maxlen_lt hs.valid)⟩

/-- Settles O9: `step` checks the configuration before it takes a transaction. -/
theorem stepRefusesAnInvalidConfiguration : Obligations.StepRefusesAnInvalidConfiguration :=
  fun _ hinvalid => step_of_not_valid hinvalid

end Sys2Proof.Machine

/-! The state (10_state.md): its values after reset, the frame of every command, and the invariant of the whole machine. -/

namespace Sys2Proof.Machine

/-! ### Reading a register through the port -/

/-- A host read at a register's own index reads that register (R21, R120). -/
theorem hostRead_indexOf {s : State} (hv : s.cfg.Valid) {r : Reg} (hr : r.wellFormed s.cfg = true) :
    hostRead s (indexOf r) = readReg s r := by
  simp only [hostRead, regAt_indexOf hv r hr]

/-- The six `P_` registers read the parameters (R34). -/
theorem hostRead_parameters {s : State} (hv : s.cfg.Valid) :
    hostRead s 0x010 = BitVec.ofNat 32 s.cfg.symW ∧ hostRead s 0x011 = BitVec.ofNat 32 s.cfg.maxlen ∧
    hostRead s 0x012 = BitVec.ofNat 32 s.cfg.bbCap ∧ hostRead s 0x013 = BitVec.ofNat 32 s.cfg.srcCap ∧
    hostRead s 0x014 = BitVec.ofNat 32 s.cfg.dstCap ∧ hostRead s 0x015 = BitVec.ofNat 32 s.cfg.nodeCap :=
  ⟨hostRead_indexOf hv (r := .pSymw) rfl, hostRead_indexOf hv (r := .pMaxlen) rfl,
   hostRead_indexOf hv (r := .pBbcap) rfl, hostRead_indexOf hv (r := .pSrccap) rfl,
   hostRead_indexOf hv (r := .pDstcap) rfl, hostRead_indexOf hv (r := .pNodecap) rfl⟩

/-! ### The state after reset -/

/-- After reset the report, the operand registers and the lengths of the buffer and the streams read 0 (R48). -/
theorem hostRead_resetOf_eq_zero {cfg : Config} (hv : cfg.Valid) {r : Reg}
    (hr : r ∈ ([.cmd, .status, .cause, .info, .result, .a0, .a1, .term, .bblen, .srclen, .dstlen] : List Reg)) :
    hostRead (State.resetOf cfg) (indexOf r) = 0 := by
  have hread : r.wellFormed cfg = true ∧ readReg (State.resetOf cfg) r = 0 := by
    fin_cases hr <;> exact ⟨rfl, rfl⟩
  rw [hostRead_indexOf hv hread.1, hread.2]

/-- After reset every code operand register reads 0 (R48). -/
theorem hostRead_resetOf_c {cfg : Config} (hv : cfg.Valid) {k : Nat} (hk : k < cfg.cw) :
    hostRead (State.resetOf cfg) (BitVec.ofNat 10 (0x020 + k)) = 0 := by
  have hread := hostRead_indexOf (s := State.resetOf cfg) hv (r := .c k) (decide_eq_true hk)
  simpa [indexOf, readReg, hk] using hread

/-- Settles O12: each register is read at its own index, and the reset state lists its value. -/
theorem resetStateHasTheStatedValues : Obligations.ResetStateHasTheStatedValues := by
  intro cfg hv
  obtain ⟨hsymW, hmaxlen, hbbCap, hsrcCap, hdstCap, hnodeCap⟩ := hostRead_parameters (s := State.resetOf cfg) hv
  refine ⟨?_, fun k hk => hostRead_resetOf_c hv hk, hostRead_indexOf hv (r := .nodes) rfl, hostRead_indexOf hv (r := .id) rfl,
    hsymW, hmaxlen, hbbCap, hsrcCap, hdstCap, hnodeCap, fun _ => rfl, rfl, rfl, rfl, rfl⟩
  intro n hn
  have hindex : n ∈ ([.cmd, .status, .cause, .info, .result, .a0, .a1, .term, .bblen, .srclen, .dstlen] : List Reg).map indexOf := hn
  obtain ⟨r, hr, rfl⟩ := List.mem_map.mp hindex
  exact hostRead_resetOf_eq_zero hv hr

/-- Every legal configuration has room for the root of the trie (R4). -/
theorem one_le_nodeCap_of_valid {cfg : Config} (h : cfg.Valid) : 1 ≤ cfg.nodeCap := by
  obtain ⟨-, -, -, -, -, hnode, -⟩ := h
  exact hnode

/-- The reset state is legal (R47: "true after reset"; R48). -/
theorem inv_resetOf {cfg : Config} (h : cfg.Valid) : (State.resetOf cfg).Inv where
  valid := h
  cCount := by simp
  termSymbol := by simp [Config.nsym]
  errIsCause := rfl
  causeNamed := by simp
  okInfo _ := rfl
  faultResult _ := rfl
  table := Memory.wf_nil cfg
  bbFits := Nat.zero_le _
  srcFits := Nat.zero_le _
  dstFits := Nat.zero_le _
  srcSymbols := by simp
  dstSymbols := by simp
  trieInv := trieInv_rootAlone (one_le_nodeCap_of_valid h)

/-- Both resets leave a legal state, whatever they reset (R124, R300). -/
theorem inv_resetBlock {s : State} (h : s.cfg.Valid) : (resetBlock s).Inv := { inv_resetOf h with }

/-- Settles O53: the reference configuration is one of the legal ones. -/
theorem invariantHoldsAfterReset : Obligations.InvariantHoldsAfterReset :=
  ⟨fun _ h => inv_resetOf h, inv_resetOf (by decide)⟩

/-! ### The report -/

/-- Settles O49: after its checks a command's outcome is `finish` or `raise` over state it has not read the report of,
and these write all four report registers. -/
theorem noCommandReadsTheReport : Obligations.NoCommandReadsTheReport := by
  intro i s result info cause err
  cases i
  case nop | reset | srcclear | trieclear => rfl
  all_goals
    simp only [exec, execCtwrite_eq, execCtread_eq, execBbcreate_eq, execBbget_eq, execBbset_eq, execBbclear_eq,
      execBbrdbyte_eq, execBbwrbyte_eq, execSrcpush_eq, execSrcterm_eq, execSrcread_eq, execDstread_eq, execEncsize_eq,
      execEncode_eq, execTrieadd_eq, execTriebuild_eq, execDecode_eq]
    rfl

/-- Every command ends by `Complete`, normally or with a fault (R122, R263). -/
theorem exec_ends {i : Instr} {s t : State} (h : exec i s = .next t) : (∃ u v, t = finish u v) ∨ ∃ u f, t = raise u f := by
  rcases exec_cases i s t h with ⟨u, v, ht, -⟩ | ⟨f, -, ht⟩
  · exact .inl ⟨u, v, ht⟩
  · exact .inr ⟨_, f, ht⟩

theorem Raised.code_ne_zero (f : Raised) : f.cause.code ≠ 0 := by cases f <;> simp [Raised.cause, Cause.code]

/-- Settles O50: both ends of a command write a report that agrees. -/
theorem reportRegistersAgree : Obligations.ReportRegistersAgree := by
  intro i s t h
  rcases exec_ends h with ⟨u, v, rfl⟩ | ⟨u, f, rfl⟩
  · simp
  · have hcode : (raise u f).cause ≠ 0 := f.code_ne_zero
    exact ⟨iff_of_true rfl hcode, fun hcause => absurd hcause hcode, fun _ => rfl⟩

/-- The cause a command leaves is 0 or one of the codes of R261 that the block raises. -/
theorem exec_cause_named {i : Instr} {s t : State} (h : exec i s = .next t) :
    t.cause ∈ ([0, 2, 3, 4, 5, 6, 16, 17, 18, 19] : List (BitVec 5)) := by
  rcases exec_ends h with ⟨u, v, rfl⟩ | ⟨u, f, rfl⟩
  · simp
  · cases f <;> simp [Raised.cause, Cause.code]

/-! ### What a command leaves unchanged -/

/-- Settles O45: from the case analysis of `exec_cases`; RESET keeps the parameters and the two lists of the port. -/
theorem commandsKeepTheOperandRegisters : Obligations.CommandsKeepTheOperandRegisters := by
  intro i s t h
  rcases exec_cases i s t h with ⟨u, v, rfl, hreset, hframe⟩ | ⟨f, -, rfl⟩
  · by_cases hi : i = .reset
    · obtain rfl := hreset hi
      exact ⟨absurd hi, absurd hi, rfl, rfl, rfl⟩
    · obtain ⟨hcfg, hport, hreplies, ha0, ha1, hterm, hc, -⟩ := hframe hi
      exact ⟨fun _ => ⟨ha0, ha1, hterm⟩, fun _ => hc, hcfg, hport, hreplies⟩
  · exact ⟨fun _ => ⟨rfl, rfl, rfl⟩, fun _ _ => rfl, rfl, rfl, rfl⟩

/-- Settles O46: from the case analysis of `exec_cases`; a fault empties only what DECODE and TRIEBUILD write. -/
theorem memoriesChangeOnlyByTheirCommands : Obligations.MemoriesChangeOnlyByTheirCommands := by
  intro i s t h
  rcases exec_cases i s t h with ⟨u, v, rfl, -, hframe⟩ | ⟨f, -, rfl⟩
  · by_cases hi : i = .reset
    · simp [hi]
    · obtain ⟨-, -, -, -, -, -, -, hct, hbb, hsrc, hdst, htrie⟩ := hframe hi
      exact ⟨fun hw => hct (by simp_all), fun hw => hbb (by simp_all), fun hw => hsrc (by simp_all),
        fun hw => hdst (by simp_all), fun hw => htrie (by simp_all)⟩
  · simp +contextual

/-- BBSET, BBCLEAR and BBWRBYTE write bits in place (R153, R154, R156). -/
theorem bitWrites_keep_length {i : Instr} {s t : State} (h : exec i s = .next t)
    (hi : i = .bbset ∨ i = .bbclear ∨ i = .bbwrbyte) : t.bb.length = s.bb.length := by
  rcases hi with rfl | rfl | rfl
  · rw [exec, execBbset_eq] at h
    split_ifs at h <;> cases h <;> simp
  · rw [exec, execBbclear_eq] at h
    split_ifs at h <;> cases h <;> simp
  · rw [exec, execBbwrbyte_eq] at h
    split_ifs at h <;> cases h <;> simp

/-- Settles O26: the other commands that write the buffer write bits in place. -/
theorem bufferLengthIsFixedBetweenCreations : Obligations.BufferLengthIsFixedBetweenCreations := by
  intro i s t h hi
  by_cases hw : i = .bbset ∨ i = .bbclear ∨ i = .bbwrbyte
  · exact bitWrites_keep_length h hw
  · obtain ⟨-, hbb, -⟩ := memoriesChangeOnlyByTheirCommands i s t h
    rw [hbb (by simp_all)]

/-! ### One transaction -/

/-- All that one transaction can do to the block (R60, R120 to R122, R300). -/
inductive Effect (s : State) : State → Prop where
  | command {t : State} (i : Instr) (h : exec i s = .next t) : Effect s t
  | illegal (w : Word) : Effect s (raise s (.illegalCommand w))
  | reset : Effect s (resetBlock s)
  | reply (words : List Word) : Effect s { s with replies := words }
  | writeA0 (w : Word) : Effect s { s with a0 := w }
  | writeA1 (w : Word) : Effect s { s with a1 := w }
  | writeTerm (w : Word) : Effect s { s with term := symbolPart s.cfg w }
  | writeC (k : Nat) (w : Word) : Effect s { s with c := s.c.set k w }
  | drop : Effect s s

/-- A word written to `CMD` runs a command or raises IllegalCommand (R91, R122). -/
theorem execute_effect {s t : State} {w : Word} (h : execute s w = .next t) : Effect s t := by
  cases hd : decodeWord w with
  | ok i =>
    rw [execute_of_decode hd] at h
    exact .command i h
  | error e =>
    rw [execute_of_illegal hd] at h
    cases h
    exact .illegal w

/-- A host write runs its word, stores it in a writable register, or is dropped (R38, R121). -/
theorem hostWrite_effect {s t : State} {index : BitVec 10} {w : Word} (h : hostWrite s index w = .next t) : Effect s t := by
  unfold hostWrite at h
  split at h
  case h_1 => exact execute_effect h
  case h_2 => cases h; exact .writeA0 w
  case h_3 => cases h; exact .writeA1 w
  case h_4 => cases h; exact .writeTerm w
  case h_5 k _ => cases h; exact .writeC k w
  all_goals cases h; exact .drop

theorem transact_effect {s t : State} {tr : Transaction} (h : transact s tr = .next t) : Effect s t := by
  cases tr with
  | hostRead index => cases h; exact .reply _
  | hostWrite index w => exact hostWrite_effect h
  | hardReset => cases h; exact .reset

/-- A step has the effect of a transaction taken from the port, or none (R60, R301). -/
theorem step_effect {s t : State} (h : step s = .next t) : s.cfg.Valid ∧ ∃ queue, Effect { s with port := queue } t := by
  obtain ⟨hv, ⟨-, rfl⟩ | ⟨tr, rest, -, htr⟩⟩ := step_cases h
  · exact ⟨hv, t.port, .drop⟩
  · exact ⟨hv, rest, transact_effect htr⟩

theorem Effect.cfg_eq {s t : State} (h : Effect s t) : t.cfg = s.cfg := by
  cases h with
  | command i h =>
    obtain ⟨-, -, hcfg, -⟩ := commandsKeepTheOperandRegisters i s t h
    exact hcfg
  | _ => rfl

/-- Settles O11: no effect of a transaction touches the parameters, and a step runs in a legal configuration only. -/
theorem parametersNeverChange : Obligations.ParametersNeverChange := by
  intro s t h
  obtain ⟨hv, queue, heffect⟩ := step_effect h
  have hcfg : t.cfg = s.cfg := heffect.cfg_eq
  refine ⟨hcfg, ?_⟩
  rw [← hcfg] at hv ⊢
  exact hostRead_parameters hv

/-! ### The code table -/

/-- The value the `C` registers carry is the sum R27 writes. -/
theorem operandValue_eq_carrierValue (s : State) : Claims.operandValue s = carrierValue s.c := by
  unfold Claims.operandValue
  induction s.c with
  | nil => rfl
  | cons w rest ih =>
    have hshift : ∀ k, ((w :: rest).getD (k + 1) 0).toNat * 2 ^ (32 * (k + 1)) = 2 ^ 32 * ((rest.getD k 0).toNat * 2 ^ (32 * k)) := by
      intro k
      rw [List.getD_cons_succ]
      ring
    rw [List.length_cons, List.range_succ_eq_map, List.map_cons, List.map_map, List.sum_cons, carrierValue, ← ih,
      ← List.sum_map_mul_left]
    simp only [Function.comp_def, hshift]
    simp

/-- CTREAD of an entry that is the code the `C` registers carry leaves `C` as it is: the registers are determined by
the value they carry (R27, R141). -/
theorem exec_ctread_of_carried {t : State} {len : Nat} (hcount : t.c.length = t.cfg.cw) (hsym : t.a0.toNat < t.cfg.nsym)
    (hvalue : carrierValue t.c < 2 ^ len) (hentry : readEntry t.ct t.a0.toNat = codeOfValue len (carrierValue t.c)) :
    exec .ctread t = .next (finish t (BitVec.ofNat 32 len)) := by
  rw [exec, execCtread_eq, if_neg (Nat.not_le.mpr hsym), hentry, codeOfValue_length, valueOfCode_codeOfValue _ _ hvalue,
    ← hcount, carrierOfValue_carrierValue]

/-- Settles O17: CTWRITE leaves the operand registers and the entry that CTREAD then finds to be the code they carry. -/
theorem ctreadAfterCtwriteReturnsTheOperand : Obligations.CtreadAfterCtwriteReturnsTheOperand := by
  intro s hcount hsym hlen hvalue
  rw [operandValue_eq_carrierValue] at hvalue
  have hwrite : exec .ctwrite s =
      .next (finish { s with ct := writeEntry s.ct s.a0.toNat (codeOfValue s.a1.toNat (carrierValue s.c)) } 0) := by
    rw [exec, execCtwrite_eq, if_neg (by omega), if_neg (by omega), if_neg (by omega)]
  refine ⟨_, hwrite, ?_⟩
  rw [exec_ctread_of_carried (len := s.a1.toNat) (by exact hcount) (by exact hsym) (by exact hvalue) (readEntry_writeEntry_same ..),
    BitVec.ofNat_toNat, BitVec.setWidth_eq]
  rfl

/-- What one canonical table lists, another that reads the same lists too. -/
theorem subset_of_readEntry_eq {cfg : Config} {ct₁ ct₂ : CodeTable} (h₁ : Memory.wf cfg ct₁) (h₂ : Memory.wf cfg ct₂)
    (h : ∀ sym < cfg.nsym, readEntry ct₁ sym = readEntry ct₂ sym) : ct₁ ⊆ ct₂ := by
  rintro ⟨sym, b⟩ hmem
  obtain ⟨hsym, hlen, -⟩ := h₁.2 _ hmem
  have hb : b ≠ [] := List.ne_nil_of_length_pos hlen
  have hread : readEntry ct₁ sym = b := (readEntry_eq_iff_mem h₁ hb).mpr hmem
  exact (readEntry_eq_iff_mem h₂ hb).mp (h sym hsym ▸ hread)

/-- Settles O18: both tables list the same entries, and both list them by rising symbol value. -/
theorem canonicalTablesWithEqualEntriesAreEqual : Obligations.CanonicalTablesWithEqualEntriesAreEqual := by
  intro cfg ct₁ ct₂ h₁ h₂ h
  have : Std.Irrefl (fun e f : Nat × Code => e.1 < f.1) := ⟨fun e => Nat.lt_irrefl e.1⟩
  have : Std.Antisymm (fun e f : Nat × Code => e.1 < f.1) := ⟨fun e f hef hfe => absurd hfe (Nat.lt_asymm hef)⟩
  exact List.Subset.antisymm_of_pairwise h₁.1 h₂.1 (subset_of_readEntry_eq h₁ h₂ h)
    (subset_of_readEntry_eq h₂ h₁ fun sym hsym => (h sym hsym).symm)

/-! ### The trie -/

/-- Settles O55: from the shape invariants of the node store alone. -/
theorem trieIsATreeWithPrefixFreeLeaves : Obligations.TrieIsATreeWithPrefixFreeLeaves := by
  intro cfg t h
  have htree : TreeInv t 0 := h.tree 0
  refine ⟨fun k hk => ?_, fun p q x y hp hq hpq => htree.leaves_prefixFree hp hq hpq⟩
  obtain ⟨p, hp⟩ := htree.path_exists k hk
  exact ⟨p, hp, fun q hq => htree.path_inj hq hp⟩

/-! ### Every command keeps each part of the invariant

RESET apart, a part of the invariant is at risk only from the commands that write its memory or register. -/

/-- A symbol appended to a source stream that is not full (R171, R173). -/
theorem State.Inv.append_src {s : State} (hs : s.Inv) {sym : Symbol} (hsym : sym.toNat < s.cfg.nsym)
    (hroom : s.src.length ≠ s.cfg.srcCap) :
    (s.src ++ [sym]).length ≤ s.cfg.srcCap ∧ ∀ x ∈ s.src ++ [sym], x.toNat < s.cfg.nsym := by
  refine ⟨?_, List.forall_mem_append.mpr ⟨hs.srcSymbols, by simpa using hsym⟩⟩
  rw [List.length_append, List.length_singleton]
  exact hs.srcFits.lt_of_ne hroom

section CommandsKeepTheInvariant

variable {i : Instr} {s t : State} (hs : s.Inv) (h : exec i s = .next t) (hi : i ≠ .reset)
include hs h hi

theorem exec_keeps_cCount : t.c.length = s.cfg.cw := by
  by_cases hw : i = .ctread
  · subst hw
    rw [exec, execCtread_eq] at h
    split_ifs at h <;> cases h
    · exact hs.cCount
    · simp
  · obtain ⟨-, hc, -⟩ := commandsKeepTheOperandRegisters i s t h
    rw [hc hi hw, hs.cCount]

theorem exec_keeps_table : Memory.wf s.cfg t.ct := by
  by_cases hw : i = .ctwrite
  · subst hw
    rw [exec, execCtwrite_eq] at h
    split_ifs at h with hsym hlen hvalue <;> cases h
    case neg => exact Memory.wf_writeEntry hs.table (Nat.not_le.mp hsym) (by simpa using hlen)
    all_goals exact hs.table
  · obtain ⟨hct, -⟩ := memoriesChangeOnlyByTheirCommands i s t h
    rw [hct (by simp [hw, hi])]
    exact hs.table

theorem exec_keeps_bbFits : t.bb.length ≤ s.cfg.bbCap := by
  by_cases hw : i = .bbcreate ∨ i = .encode
  · rcases hw with rfl | rfl
    · rw [exec, execBbcreate_eq] at h
      split_ifs at h with hneg hbig <;> cases h
      case neg => rw [finish_bb, zeroBuffer_length]; omega
      all_goals exact hs.bbFits
    · rw [exec, execEncode_eq] at h
      split at h
      · cases h; exact hs.bbFits
      · split_ifs at h with hbig <;> cases h
        · exact hs.bbFits
        · simpa using hbig
  · rw [bufferLengthIsFixedBetweenCreations i s t h (by simp_all)]
    exact hs.bbFits

theorem exec_keeps_src : t.src.length ≤ s.cfg.srcCap ∧ ∀ sym ∈ t.src, sym.toNat < s.cfg.nsym := by
  have hkeep : s.src.length ≤ s.cfg.srcCap ∧ ∀ sym ∈ s.src, sym.toNat < s.cfg.nsym := ⟨hs.srcFits, hs.srcSymbols⟩
  by_cases hw : i = .srcclear ∨ i = .srcpush ∨ i = .srcterm
  · rcases hw with rfl | rfl | rfl
    · cases h; simp
    · rw [exec, execSrcpush_eq] at h
      split_ifs at h with hsym hfull <;> cases h
      case neg => exact hs.append_src (Nat.not_le.mp hsym) hfull
      all_goals exact hkeep
    · rw [exec, execSrcterm_eq] at h
      split_ifs at h with hlast hfull <;> cases h
      case neg => exact hs.append_src hs.termSymbol hfull
      all_goals exact hkeep
  · obtain ⟨-, -, hsrc, -⟩ := memoriesChangeOnlyByTheirCommands i s t h
    rw [hsrc (by simp_all)]
    exact hkeep

theorem exec_keeps_dst : t.dst.length ≤ s.cfg.dstCap ∧ ∀ sym ∈ t.dst, sym.toNat < s.cfg.nsym := by
  by_cases hw : i = .decode
  · subst hw
    rw [exec, execDecode_eq] at h
    split at h <;> cases h
    case h_1 => simp
    case h_2 hwalk => exact walkBits_ok hs.trieInv _ _ _ _ _ _ _ (Nat.zero_le _) (by simp) hwalk
  · obtain ⟨-, -, -, hdst, -⟩ := memoriesChangeOnlyByTheirCommands i s t h
    rw [hdst (by simp [hw, hi])]
    exact ⟨hs.dstFits, hs.dstSymbols⟩

theorem exec_keeps_trie : TrieInv s.cfg t.trie := by
  have hroot : TrieInv s.cfg rootAlone := trieInv_rootAlone (one_le_nodeCap_of_valid hs.valid)
  by_cases hw : i = .trieclear ∨ i = .trieadd ∨ i = .triebuild
  · rcases hw with rfl | rfl | rfl
    · cases h; exact hroot
    · rw [exec, execTrieadd_eq] at h
      split_ifs at h with hsym hlen hvalue hzero
      case neg =>
        have hne : codeOfValue s.a1.toNat (carrierValue s.c) ≠ [] :=
          List.ne_nil_of_length_pos (by rw [codeOfValue_length]; omega)
        split at h <;> cases h
        case h_1 => exact hs.trieInv
        case h_2 hinsert => exact insertCode_keeps_trieInv hs.trieInv hne (Nat.not_le.mp hsym) hinsert
      all_goals cases h; exact hs.trieInv
    · rw [exec, execTriebuild_eq] at h
      split at h <;> cases h
      case h_1 => exact hroot
      case h_2 hbuild => exact buildFrom_keeps_trieInv _ _ _ hroot (by simp) hbuild
  · obtain ⟨-, -, -, -, htrie⟩ := memoriesChangeOnlyByTheirCommands i s t h
    rw [htrie (by simp_all)]
    exact hs.trieInv

end CommandsKeepTheInvariant

/-- Every command keeps the invariant: RESET gives the reset state, every other command keeps it part by part. -/
theorem exec_keeps_inv {i : Instr} {s t : State} (hs : s.Inv) (h : exec i s = .next t) : t.Inv := by
  by_cases hi : i = .reset
  · subst hi
    cases h
    exact (inv_resetBlock hs.valid).finish 0
  · obtain ⟨hregs, -, hcfg, -⟩ := commandsKeepTheOperandRegisters i s t h
    obtain ⟨-, -, hterm⟩ := hregs hi
    obtain ⟨herr, hinfo, hresult⟩ := reportRegistersAgree i s t h
    obtain ⟨hsrcFits, hsrcSymbols⟩ := exec_keeps_src hs h hi
    obtain ⟨hdstFits, hdstSymbols⟩ := exec_keeps_dst hs h hi
    exact
      { valid := hcfg ▸ hs.valid
        cCount := hcfg ▸ exec_keeps_cCount hs h hi
        termSymbol := by rw [hcfg, hterm]; exact hs.termSymbol
        errIsCause := by rw [Bool.eq_iff_iff, decide_eq_true_iff]; exact herr
        causeNamed := exec_cause_named h
        okInfo := hinfo
        faultResult := hresult
        table := hcfg ▸ exec_keeps_table hs h hi
        bbFits := hcfg ▸ exec_keeps_bbFits hs h hi
        srcFits := hcfg ▸ hsrcFits
        dstFits := hcfg ▸ hdstFits
        srcSymbols := hcfg ▸ hsrcSymbols
        dstSymbols := hcfg ▸ hdstSymbols
        trieInv := hcfg ▸ exec_keeps_trie hs h hi }

/-- The part of a word that `TERM` keeps is a symbol (R28). -/
theorem symbolPart_lt (cfg : Config) (w : Word) : (symbolPart cfg w).toNat < cfg.nsym := by
  rw [symbolPart, BitVec.toNat_ofNat]
  exact (Nat.mod_le _ _).trans_lt (Nat.mod_lt _ (Nat.two_pow_pos _))

theorem Effect.keeps_inv {s t : State} (h : Effect s t) (hs : s.Inv) : t.Inv := by
  cases h with
  | command i h => exact exec_keeps_inv hs h
  | illegal w => exact hs.raise _
  | reset => exact inv_resetBlock hs.valid
  | reply words => exact { hs with }
  | writeA0 w => exact { hs with }
  | writeA1 w => exact { hs with }
  | writeTerm w => exact { hs with termSymbol := symbolPart_lt s.cfg w }
  | writeC k w => exact { hs with cCount := by simpa using hs.cCount }
  | drop => exact hs

/-- Settles O54: a step has the effect of one transaction, and each effect keeps the invariant. -/
theorem invariantIsKeptByEveryStep : Obligations.InvariantIsKeptByEveryStep := by
  intro s t hs h
  obtain ⟨-, queue, heffect⟩ := step_effect h
  exact heffect.keeps_inv { hs with }

end Sys2Proof.Machine

/-! The memories (20_memory.md): the byte view of the BitBuffer (R62). -/

namespace Sys2Proof.Machine

theorem readByte_toNat (bb : List Bool) (i : Nat) : (BitVec.ofNat 32 (readByte bb i)).toNat = readByte bb i := by
  have hlt := readByte_lt bb i
  rw [BitVec.toNat_ofNat, Nat.mod_eq_of_lt (by omega)]

/-- Bit 7 - k of the result word is the bit at position 8i + k (R62, R155). -/
theorem readByte_getLsbD (bb : List Bool) (i : Nat) {k : Nat} (hk : k < 8) :
    (BitVec.ofNat 32 (readByte bb i)).getLsbD (7 - k) = getBit bb (8 * i + k) := by
  rw [BitVec.getLsbD, readByte_toNat, readByte_testBit bb i k hk]

/-- A position of the written byte holds its bit of the value, and one that the buffer does not have reads 0 (R62, R156). -/
theorem getBit_writeByte (bb : List Bool) (i : Nat) (v : Word) {k : Nat} (hk : k < 8) :
    getBit (writeByte bb i v) (8 * i + k) = (decide (8 * i + k < bb.length) && v.getLsbD (7 - k)) := by
  rw [getBit, List.getD_eq_getElem?_getD, writeByte_getElem?]
  by_cases hp : 8 * i + k < bb.length
  · simp [hp, hk]
  · simp [hp]

/-- Settles O25: BBWRBYTE puts each bit of the value at its position, and BBRDBYTE reads each bit from its position. -/
theorem byteWrittenReadsBack : Obligations.ByteWrittenReadsBack := by
  intro s hindex hvalue
  have hwrite : exec .bbwrbyte s = .next (finish { s with bb := writeByte s.bb s.a0.toNat s.a1 } 0) := by
    rw [exec, execBbwrbyte_eq, if_neg (Nat.not_le.mpr hindex), if_neg (Nat.not_lt.mpr hvalue)]
  refine ⟨_, BitVec.ofNat 32 (readByte (writeByte s.bb s.a0.toNat s.a1) s.a0.toNat), hwrite, ?_, ?_, fun k hk => ?_⟩
  · rw [exec, execBbrdbyte_eq, if_neg (by simpa using hindex)]
    rfl
  · rw [readByte_toNat]
    exact readByte_lt _ _
  · rw [readByte_getLsbD _ _ hk, getBit_writeByte _ _ _ hk]

end Sys2Proof.Machine

/-! The encoding (30_encoding.md): the decoder over all 2^32 words (R90 to R94), what a write to `CMD` runs, and what the
assembler's CTWRITE and LOADBITS leave (R100, R101). -/

namespace Sys2Proof

/-! ### The words of the commands -/

theorem fieldRsv_eq_zero_iff (w : Word) : fieldRsv w = 0 ↔ w.toNat < 256 := by
  rw [← BitVec.toNat_inj, fieldRsv_toNat]
  exact Nat.div_eq_zero_iff_lt (by decide)

/-- A command's word is the one with its opcode in bits 7:0 and an empty reserved field (R90). -/
theorem eq_encode_iff (w : Word) (i : Instr) : w = encode i ↔ fieldRsv w = 0 ∧ fieldOp w = opcode i := by
  have hop := (opcode i).isLt
  rw [fieldRsv_eq_zero_iff, ← BitVec.toNat_inj, ← BitVec.toNat_inj, encode_toNat, fieldOp_toNat]
  omega

theorem commandTable_eq_encode : ∀ row ∈ Claims.commandTable, row.1 = encode row.2 := by decide

theorem encode_mem_commandTable (i : Instr) : (encode i, i) ∈ Claims.commandTable := by cases i <;> decide

/-- The words of R92's column are the words the encoder gives. -/
theorem mem_commandWords_iff (w : Word) : w ∈ Claims.commandTable.map (·.1) ↔ ∃ i, w = encode i := by
  rw [List.mem_map]
  constructor
  · rintro ⟨row, hrow, rfl⟩
    exact ⟨row.2, commandTable_eq_encode row hrow⟩
  · rintro ⟨i, rfl⟩
    exact ⟨_, encode_mem_commandTable i, rfl⟩

/-! ### What the decoder answers -/

theorem decodeWord_of_fieldRsv_ne_zero {w : Word} (h : fieldRsv w ≠ 0) : decodeWord w = .error .reservedBits := if_pos h

/-- A word with an empty reserved field that is no command's word names no opcode (R91). -/
theorem decodeWord_of_forall_ne_encode {w : Word} (hrsv : fieldRsv w = 0) (h : ∀ i, w ≠ encode i) :
    decodeWord w = .error .unassignedOpcode := by
  have hnone : instrOfOpcode (fieldOp w) = none :=
    Option.eq_none_iff_forall_ne_some.mpr fun i hi =>
      h i ((eq_encode_iff w i).mpr ⟨hrsv, (instrOfOpcode_eq_some _ i).mp hi⟩)
  simp [decodeWord, hrsv, hnone]

/-- All that the decoder can answer (R91, R94): the two rejections and the commands exclude each other. -/
theorem decodeWord_cases (w : Word) :
    (fieldRsv w ≠ 0 ∧ decodeWord w = .error .reservedBits) ∨
    (fieldRsv w = 0 ∧ (∀ i, w ≠ encode i) ∧ decodeWord w = .error .unassignedOpcode) ∨
    ∃ i, w = encode i ∧ decodeWord w = .ok i := by
  by_cases hrsv : fieldRsv w = 0
  · by_cases henc : ∃ i, w = encode i
    · obtain ⟨i, rfl⟩ := henc
      exact .inr (.inr ⟨i, rfl, Machine.decodeWord_encode i⟩)
    · rw [not_exists] at henc
      exact .inr (.inl ⟨hrsv, henc, decodeWord_of_forall_ne_encode hrsv henc⟩)
  · exact .inl ⟨hrsv, decodeWord_of_fieldRsv_ne_zero hrsv⟩

/-- Settles O2: the decoder answers a command for that command's word only, and reads the encoder's word back. -/
theorem decodeAcceptsExactlyTheEncodedWord : Obligations.DecodeAcceptsExactlyTheEncodedWord := by
  intro w i _
  constructor
  · intro h
    obtain ⟨-, hd⟩ | ⟨-, -, hd⟩ | ⟨j, hw, hd⟩ := decodeWord_cases w
    · cases h.symm.trans hd
    · cases h.symm.trans hd
    · cases h.symm.trans hd
      exact hw
  · rintro rfl
    exact Machine.decodeWord_encode i

/-- Settles O3: the reserved field is empty exactly below 256, and there the commands' words are the ones of R92's column. -/
theorem illegalWordsAreRejectedByName : Obligations.IllegalWordsAreRejectedByName := by
  intro w
  rw [← not_lt, ← fieldRsv_eq_zero_iff, mem_commandWords_iff, not_exists]
  obtain ⟨hrsv, hd⟩ | ⟨hrsv, hnot, hd⟩ | ⟨i, rfl, hd⟩ := decodeWord_cases w
  · exact ⟨iff_of_true hd hrsv, iff_of_false (by simp [hd]) fun h => hrsv h.1⟩
  · simp [hd, hrsv, hnot]
  · simp [hd, ((eq_encode_iff _ i).mp rfl).1]

/-- Settles O1: each word of the column is the encoder's word of its row's command. -/
theorem commandWordsDecodeToTheirCommands : Obligations.CommandWordsDecodeToTheirCommands := by
  intro row hrow
  rw [commandTable_eq_encode row hrow]
  exact Machine.decodeWord_encode row.2

end Sys2Proof

namespace Sys2Proof.Machine

/-! ### A write to `CMD` -/

theorem step_of_commandWrite {s : State} {rest : List Transaction} {w : Word} (hv : s.cfg.Valid)
    (hport : s.port = .hostWrite 0x001 w :: rest) : step s = execute { s with port := rest } w := by
  rw [step_of_valid hv, takeTransaction_cons hport]
  rfl

/-- Settles O5: a word with a one in its reserved field or an opcode outside R92's column is no command's word, so it is
rejected; with the reserved field empty, a row's opcode makes it that row's word. -/
theorem illegalCommandReportsAndChangesNothingElse : Obligations.IllegalCommandReportsAndChangesNothingElse := by
  intro s rest w hv hport
  rw [step_of_commandWrite hv hport]
  constructor
  · intro hillegal
    have hnot : ∀ i, w ≠ encode i := by
      rintro i rfl
      obtain hrsv | hop := hillegal
      · exact hrsv ((eq_encode_iff _ i).mp rfl).1
      · exact hop _ (encode_mem_commandTable i) rfl
    obtain ⟨-, hd⟩ | ⟨-, -, hd⟩ | ⟨i, hw, -⟩ := decodeWord_cases w
    · exact execute_of_illegal hd
    · exact execute_of_illegal hd
    · exact absurd hw (hnot i)
  · intro row hrow hrsv hop
    have hrowOp : fieldOp row.1 = opcode row.2 := ((eq_encode_iff _ _).mp (commandTable_eq_encode row hrow)).2
    have hw : w = encode row.2 := (eq_encode_iff w row.2).mpr ⟨hrsv, hop.symm.trans hrowOp⟩
    exact execute_of_decode (hw ▸ decodeWord_encode row.2)

/-! ### The transactions at the port, one step each -/

/-- As many steps as there are transactions at the port of `s` end in `t`. -/
def PortEnds (s t : State) : Prop := Host.Core.run core s.port.length s = .next t

theorem portEnds_of_nil {s : State} (hport : s.port = []) : PortEnds s s := by
  unfold PortEnds
  rw [hport]
  rfl

theorem run_succ_of_step {M : Host.Core} {s u : M.State} {k : Nat} (h : M.step s = .next u) : M.run (k + 1) s = M.run k u := by
  rw [Host.Core.run, h]

/-- The first transaction at the port runs, and the steps go on with the others (R60, R70). -/
theorem PortEnds.cons {s u t : State} {tr : Transaction} {rest : List Transaction} (hv : s.cfg.Valid)
    (hport : s.port = tr :: rest) (htr : transact { s with port := rest } tr = .next u) (hrest : u.port = rest)
    (hu : PortEnds u t) : PortEnds s t := by
  have hstep : step s = .next u := (step_of_valid hv).trans ((takeTransaction_cons hport).trans htr)
  unfold PortEnds at hu ⊢
  rw [hport, List.length_cons, ← hrest, ← hu]
  exact run_succ_of_step (M := core) hstep

/-- The port writes of words to `C[k], C[k+1], …` (R100). -/
def cWrites (k : Nat) (words : List Word) : List Transaction :=
  words.mapIdx (fun j word => .hostWrite (indexOf (.c (k + j))) word)

theorem cWrites_cons (k : Nat) (w : Word) (words : List Word) :
    cWrites k (w :: words) = .hostWrite (indexOf (.c k)) w :: cWrites (k + 1) words := by
  simp [cWrites, List.mapIdx_cons, Nat.add_assoc, Nat.add_comm 1]

theorem carrierWrites_eq_cWrites (cfg : Config) (bits : Code) :
    carrierWrites cfg bits = cWrites 0 (carrierOfValue cfg.cw (valueOfCode bits)) := by
  simp [carrierWrites, cWrites]

theorem transact_writeC {s : State} (hv : s.cfg.Valid) {k : Nat} (hk : k < s.cfg.cw) (w : Word) :
    transact s (.hostWrite (indexOf (.c k)) w) = .next { s with c := s.c.set k w } := by
  rw [transact_hostWrite, hostWrite, regAt_indexOf hv (.c k) (decide_eq_true hk)]

/-- The writes of words to the `C` registers that follow those already written leave the words in them. -/
theorem PortEnds.cWrites_append {rest : List Transaction} {t : State} {words done old : List Word} {s : State} (hv : s.cfg.Valid)
    (hc : s.c = done ++ old) (hold : old.length = words.length) (hcw : done.length + words.length ≤ s.cfg.cw)
    (hport : s.port = cWrites done.length words ++ rest)
    (hend : PortEnds { s with port := rest, c := done ++ words } t) : PortEnds s t := by
  induction words generalizing done old s with
  | nil =>
    have hport : s.port = rest := hport
    rw [List.eq_nil_of_length_eq_zero hold] at hc
    rwa [← hport, ← hc] at hend
  | cons w words ih =>
    obtain ⟨o, old, rfl⟩ := List.exists_cons_of_length_eq_add_one hold
    rw [List.length_cons] at hcw
    rw [cWrites_cons, List.cons_append] at hport
    rw [List.append_cons] at hend
    have hk : done.length < s.cfg.cw := by omega
    have hset : s.c.set done.length w = (done ++ [w]) ++ old := by simp [hc]
    have hwrite := transact_writeC (s := { s with port := cWrites (done.length + 1) words ++ rest }) hv hk w
    refine PortEnds.cons hv hport hwrite rfl ?_
    exact ih (done := done ++ [w]) hv hset (by simpa using hold) (by simp; omega) (by simp) hend

/-! ### The statement CTWRITE -/

/-- The operand of R142 as R100 writes it: the symbol in `A0`, the length in `A1`, the bits in `C`. -/
def withCodeOperand (s : State) (sym : Symbol) (bits : Code) : State :=
  { s with
    a0 := sym, a1 := BitVec.ofNat 32 bits.length, c := carrierOfValue s.cfg.cw (valueOfCode bits) }

/-- A statement with a code writes the operand, then runs its command (R100). -/
theorem portEnds_withCode {s t : State} (hv : s.cfg.Valid) (hcount : s.c.length = s.cfg.cw) {i : Instr} {sym : Symbol}
    {bits : Code} (hport : s.port = expandStatement s.cfg (.withCode i sym bits))
    (hexec : exec i (withCodeOperand { s with port := [] } sym bits) = .next t) (ht : t.port = []) : PortEnds s t := by
  rw [expandStatement, carrierWrites_eq_cWrites] at hport
  refine PortEnds.cons hv hport rfl rfl (PortEnds.cons hv rfl rfl rfl ?_)
  refine PortEnds.cWrites_append (done := []) hv rfl (by simpa using hcount) (by simp) rfl ?_
  exact PortEnds.cons hv rfl ((execute_of_decode (decodeWord_encode i)).trans hexec) ht (portEnds_of_nil ht)

/-- A code of at most MAXLEN bits fits the `C` registers (R4, R27). -/
theorem carrierValue_carrierOfCode {cfg : Config} {bits : Code} (h : bits.length ≤ cfg.maxlen) :
    carrierValue (carrierOfValue cfg.cw (valueOfCode bits)) = valueOfCode bits := by
  have hlen : bits.length ≤ 32 * cfg.cw := by unfold Config.cw; omega
  exact carrierValue_carrierOfValue _ _ ((valueOfCode_lt bits).trans_le (Nat.pow_le_pow_right (by decide) hlen))

/-- The operand that was written is the operand that the command decodes (R27, R142). -/
theorem codeOperand_withCodeOperand {s : State} (hv : s.cfg.Valid) {sym : Symbol} {bits : Code}
    (hsym : sym.toNat < s.cfg.nsym) (hlen : bits.length ≤ s.cfg.maxlen) :
    codeOperand (withCodeOperand s sym bits) = .ok (sym, bits) := by
  obtain ⟨-, ⟨-, hmaxlen⟩, -⟩ := hv
  have ha1 : (BitVec.ofNat 32 bits.length).toNat = bits.length := length_toNat (by omega)
  have hfit := valueOfCode_lt bits
  simp only [codeOperand_eq, withCodeOperand, ha1, carrierValue_carrierOfCode hlen, codeOfValue_valueOfCode]
  rw [if_neg (by omega), if_neg (by omega), if_neg (by omega)]

theorem exec_ctwrite_of_codeOperand {s : State} {sym : Symbol} {bits : Code} (h : codeOperand s = .ok (sym, bits)) :
    exec .ctwrite s = .next (finish { s with ct := writeEntry s.ct sym.toNat bits } 0) := by
  rw [exec, execCtwrite, h]
  rfl

/-- Settles O56: the writes leave the symbol and the code in the operand registers, and the command stores them. -/
theorem ctwriteStatementStoresItsCode : Obligations.CtwriteStatementStoresItsCode := by
  intro s sym bits hs hsym hlen hport
  have hexec := exec_ctwrite_of_codeOperand
    (codeOperand_withCodeOperand (s := { s with port := [] }) hs.valid hsym hlen)
  exact ⟨_, portEnds_withCode hs.valid hs.cCount hport hexec rfl, rfl, rfl, readEntry_writeEntry_same ..,
    fun k hk => readEntry_writeEntry_ne _ _ _ _ hk⟩

/-! ### The pseudo-instruction LOADBITS -/

/-- A statement of one operand whose command ends without a fault: the next statement is issued (R101). -/
theorem issueMacro_withA0 {s u : State} {i : Instr} {n : Int} {rest : List Statement}
    (h : exec i { s with a0 := BitVec.ofInt 32 n } = .next u) (hu : u.err = false) :
    issueMacro s (.withA0 i n :: rest) = issueMacro u rest := by
  rw [issueMacro, issue_withA0, h]
  exact if_neg (by simp [hu])

/-- The buffer with the bits at the listed positions set. -/
def setBits (bb : List Bool) (positions : List Nat) : List Bool := positions.foldl (fun bb p => putBit bb p true) bb

@[simp] theorem setBits_cons (bb : List Bool) (p : Nat) (rest : List Nat) :
    setBits bb (p :: rest) = setBits (putBit bb p true) rest := rfl

theorem setBits_getElem? {bb : List Bool} {positions : List Nat} (h : ∀ p ∈ positions, p < bb.length) (q : Nat) :
    (setBits bb positions)[q]? = if q ∈ positions then some true else bb[q]? := by
  induction positions generalizing bb with
  | nil => simp [setBits]
  | cons p rest ih =>
    rw [List.forall_mem_cons] at h
    obtain ⟨hp, hrest⟩ := h
    rw [setBits_cons, ih (by simpa using hrest), putBit_getElem? _ _ _ _ hp]
    by_cases hq : q = p <;> simp [hq]

/-- A buffer of zeros with the positions of a string's ones set is that string. -/
theorem setBits_zeroBuffer (bits : Code) :
    setBits (zeroBuffer bits.length) ((List.range bits.length).filter (fun p => getBit bits p)) = bits := by
  apply List.ext_getElem?
  intro q
  rw [setBits_getElem? (by simp +contextual)]
  by_cases hq : q < bits.length
  · cases hbit : bits[q] <;> simp [zeroBuffer, getBit, hq, hbit]
  · simp [zeroBuffer, hq]

theorem exec_bbcreate_of_natCast {s : State} (hv : s.cfg.Valid) {n : Nat} (hn : n ≤ s.cfg.bbCap) :
    exec .bbcreate { s with a0 := BitVec.ofInt 32 n } =
      .next (finish { s with a0 := BitVec.ofInt 32 n, bb := zeroBuffer n } 0) := by
  obtain ⟨-, -, hcap, -⟩ := hv
  have ha0 : (BitVec.ofInt 32 n).toInt = n := by
    have hnat := toNat_ofInt_natCast (p := n) (by omega)
    rw [BitVec.toInt_eq_toNat_of_lt (by omega), hnat]
  rw [exec, execBbcreate_eq]
  simp only [ha0, Int.toNat_natCast]
  rw [if_neg (by omega), if_neg (by omega)]

theorem exec_bbset_of_natCast {s : State} {p : Nat} (hp : p < s.bb.length) (hlen : s.bb.length < 2 ^ 31) :
    exec .bbset { s with a0 := BitVec.ofInt 32 p } =
      .next (finish { s with a0 := BitVec.ofInt 32 p, bb := putBit s.bb p true } 0) := by
  rw [exec, execBbset_eq]
  simp only [toNat_ofInt_natCast (p := p) (by omega)]
  rw [if_neg (by omega)]

/-- BBSET statements for positions of the buffer set those bits and keep the other memories (R101, R153). -/
theorem issueMacro_bbsets (positions : List Nat) (s : State) (herr : s.err = false) (hlen : s.bb.length < 2 ^ 31)
    (h : ∀ p ∈ positions, p < s.bb.length) :
    ∃ t, issueMacro s (positions.map (fun p : Nat => .withA0 .bbset p)) = .next t ∧ t.err = false ∧
      t.bb = setBits s.bb positions ∧ t.ct = s.ct ∧ t.src = s.src ∧ t.dst = s.dst ∧ t.trie = s.trie := by
  induction positions generalizing s with
  | nil => exact ⟨s, rfl, herr, rfl, rfl, rfl, rfl, rfl⟩
  | cons p rest ih =>
    rw [List.forall_mem_cons] at h
    obtain ⟨hp, hrest⟩ := h
    rw [List.map_cons, issueMacro_withA0 (exec_bbset_of_natCast hp hlen) rfl]
    exact ih _ rfl (by simpa using hlen) (by simpa using hrest)

/-- LOADBITS as BBCREATE and one BBSET for each position that holds a one (R101). -/
theorem expandPseudo_loadBits (bits : Code) :
    expandPseudo (.loadBits bits) =
      .withA0 .bbcreate bits.length ::
        ((List.range bits.length).filter (fun p => getBit bits p)).map (fun p : Nat => .withA0 .bbset p) := by
  simp [expandPseudo, ← List.map_eq_flatMap]

/-- Settles O57: BBCREATE leaves a buffer of zeros, in which the BBSETs set the ones. -/
theorem loadbitsMacroLeavesItsBits : Obligations.LoadbitsMacroLeavesItsBits := by
  intro s bits hs hfits
  have hcap : s.cfg.bbCap < 2 ^ 31 := by
    obtain ⟨-, -, hcap, -⟩ := hs.valid
    exact hcap
  rw [expandPseudo_loadBits, issueMacro_withA0 (exec_bbcreate_of_natCast hs.valid hfits) rfl]
  obtain ⟨t, hrun, herr, hbb, hframe⟩ := issueMacro_bbsets
    ((List.range bits.length).filter (fun p => getBit bits p))
    (finish { s with a0 := BitVec.ofInt 32 bits.length, bb := zeroBuffer bits.length } 0) rfl
    (by simpa using hfits.trans_lt hcap) (by simp +contextual)
  exact ⟨t, hrun, herr, hbb.trans (setBits_zeroBuffer bits), hframe⟩

end Sys2Proof.Machine

/-! The host port (40_host_port.md): which register an index selects (R21), what HostRead gives and HostWrite stores (R120,
R121), the dispatch of a word written to `CMD` (R122), and the system commands (R123, R124). -/

namespace Sys2Proof.Machine

/-! ### The register an index selects -/

theorem indexOf_c_toNat {cfg : Config} (hv : cfg.Valid) {k : Nat} (hk : k < cfg.cw) : (indexOf (.c k)).toNat = 0x020 + k := by
  have hcw := Config.cw_le hv
  rw [indexOf, BitVec.toNat_ofNat]
  omega

/-- An index that selects a register is that register's own, and the register exists (R21). -/
theorem eq_indexOf_of_regAt {cfg : Config} {index : BitVec 10} {r : Reg} (h : regAt cfg index = some r) :
    r.wellFormed cfg = true ∧ index = indexOf r := by
  unfold regAt at h
  split at h
  case h_20 =>
    obtain ⟨⟨hlow, hhigh⟩, hr⟩ := Option.ite_none_right_eq_some.mp h
    cases hr
    refine ⟨decide_eq_true (by omega), BitVec.eq_of_toNat_eq ?_⟩
    rw [indexOf, Nat.add_sub_cancel' hlow, BitVec.ofNat_toNat, BitVec.setWidth_eq]
  all_goals
    cases h
    exact ⟨rfl, BitVec.eq_of_toNat_eq ‹_›⟩

/-- In a configuration of the hardware an index selects the one register that exists with that index (R21). -/
theorem regAt_eq_some_iff {cfg : Config} (hv : cfg.Valid) {index : BitVec 10} {r : Reg} :
    regAt cfg index = some r ↔ r.wellFormed cfg = true ∧ index = indexOf r := by
  constructor
  · exact eq_indexOf_of_regAt
  · rintro ⟨hr, rfl⟩
    exact regAt_indexOf hv r hr

theorem regAt_of_toNat {cfg : Config} (hv : cfg.Valid) {index : BitVec 10} {r : Reg} (hr : r.wellFormed cfg = true)
    (h : index.toNat = (indexOf r).toNat) : regAt cfg index = some r :=
  (regAt_eq_some_iff hv).mpr ⟨hr, BitVec.eq_of_toNat_eq h⟩

theorem regAt_eq_none_of_not_mapped {cfg : Config} {index : BitVec 10} (h : ¬ Claims.mapped cfg index.toNat) :
    regAt cfg index = none := by
  obtain ⟨hlow, hparam, hc⟩ : ¬ index.toNat ≤ 0x00C ∧ ¬ (0x010 ≤ index.toNat ∧ index.toNat ≤ 0x015) ∧
      ¬ (0x020 ≤ index.toNat ∧ index.toNat < 0x020 + cfg.cw) := by
    simpa only [Claims.mapped, not_or] using h
  exact regAt_unmapped (by omega) (by omega) hc

/-! ### HostRead -/

theorem step_of_hostRead {s : State} {rest : List Transaction} {index : BitVec 10} (hv : s.cfg.Valid)
    (hport : s.port = .hostRead index :: rest) :
    step s = .next { s with port := rest, replies := hostRead s index :: s.replies } := by
  rw [step_of_valid hv, takeTransaction_cons hport, transact_hostRead]
  rfl

theorem hostRead_of_regAt {s : State} {index : BitVec 10} {r : Reg} (h : regAt s.cfg index = some r) :
    hostRead s index = readReg s r := by
  simp only [hostRead, h]

theorem hostRead_of_unmapped {s : State} {index : BitVec 10} (h : regAt s.cfg index = none) : hostRead s index = 0 := by
  simp only [hostRead, h]

/-- Settles O6: the reply is `hostRead`, which reads the register whose index is given, and 0 where there is none. -/
theorem hostReadReturnsTheRegisterAndChangesNothing : Obligations.HostReadReturnsTheRegisterAndChangesNothing := by
  intro s rest index hv hport
  have hread {r : Reg} (hr : r.wellFormed s.cfg = true) (h : index.toNat = (indexOf r).toNat) : hostRead s index = readReg s r :=
    hostRead_of_regAt (regAt_of_toNat hv hr h)
  have hcause (h : index.toNat = 0x003) : (hostRead s index).toNat = s.cause.toNat := by
    rw [hread (r := .cause) rfl h, readReg, BitVec.toNat_setWidth_of_le (by decide)]
  exact ⟨hostRead s index, step_of_hostRead hv hport, hread (r := .id) rfl, hread (r := .cmd) rfl, hread (r := .status) rfl,
    hcause, hread (r := .info) rfl, hread (r := .result) rfl, hread (r := .a0) rfl, hread (r := .a1) rfl,
    hread (r := .term) rfl, hread (r := .bblen) rfl, hread (r := .srclen) rfl, hread (r := .dstlen) rfl,
    hread (r := .nodes) rfl, hread (r := .pSymw) rfl, hread (r := .pMaxlen) rfl, hread (r := .pBbcap) rfl,
    hread (r := .pSrccap) rfl, hread (r := .pDstcap) rfl, hread (r := .pNodecap) rfl,
    fun _ hk h => hostRead_of_regAt (regAt_c s.cfg hk h), fun h => hostRead_of_unmapped (regAt_eq_none_of_not_mapped h)⟩

/-! ### HostWrite -/

theorem step_of_hostWrite {s : State} {rest : List Transaction} {index : BitVec 10} {w : Word} (hv : s.cfg.Valid)
    (hport : s.port = .hostWrite index w :: rest) : step s = hostWrite { s with port := rest } index w := by
  rw [step_of_valid hv, takeTransaction_cons hport, transact_hostWrite]

theorem symbolPart_toNat (cfg : Config) (w : Word) : (symbolPart cfg w).toNat = w.toNat % 2 ^ cfg.symW := by
  rw [symbolPart, BitVec.toNat_ofNat]
  exact Nat.mod_eq_of_lt ((Nat.mod_le _ _).trans_lt w.isLt)

section HostWriteCases

variable {s : State} {index : BitVec 10} {w : Word}

theorem hostWrite_of_cmd (h : regAt s.cfg index = some .cmd) : hostWrite s index w = execute s w := by
  simp only [hostWrite, h]

theorem hostWrite_of_a0 (h : regAt s.cfg index = some .a0) : hostWrite s index w = .next { s with a0 := w } := by
  simp only [hostWrite, h]

theorem hostWrite_of_a1 (h : regAt s.cfg index = some .a1) : hostWrite s index w = .next { s with a1 := w } := by
  simp only [hostWrite, h]

theorem hostWrite_of_term (h : regAt s.cfg index = some .term) :
    hostWrite s index w = .next { s with term := symbolPart s.cfg w } := by
  simp only [hostWrite, h]

theorem hostWrite_of_c {k : Nat} (h : regAt s.cfg index = some (.c k)) :
    hostWrite s index w = .next { s with c := s.c.set k w } := by
  simp only [hostWrite, h]

/-- A read-only register or an unmapped index drops the write (R38): only `CMD`, `A0`, `A1`, `TERM` and the `C` registers take one. -/
theorem hostWrite_of_not_writable (hcmd : regAt s.cfg index ≠ some .cmd) (ha0 : regAt s.cfg index ≠ some .a0)
    (ha1 : regAt s.cfg index ≠ some .a1) (hterm : regAt s.cfg index ≠ some .term) (hc : ∀ k, regAt s.cfg index ≠ some (.c k)) :
    hostWrite s index w = .next s := by
  unfold hostWrite
  split
  case h_1 h => exact absurd h hcmd
  case h_2 h => exact absurd h ha0
  case h_3 h => exact absurd h ha1
  case h_4 h => exact absurd h hterm
  case h_5 k h => exact absurd h (hc k)
  all_goals rfl

end HostWriteCases

theorem regAt_ne_of_toNat_ne {cfg : Config} {index : BitVec 10} {r : Reg} (h : index.toNat ≠ (indexOf r).toNat) :
    regAt cfg index ≠ some r :=
  fun hreg => h (congrArg BitVec.toNat (eq_indexOf_of_regAt hreg).2)

/-- Outside the range of the `C` registers no index selects one (R21). -/
theorem regAt_ne_c {cfg : Config} (hv : cfg.Valid) {index : BitVec 10}
    (h : ¬ (0x020 ≤ index.toNat ∧ index.toNat < 0x020 + cfg.cw)) (k : Nat) : regAt cfg index ≠ some (.c k) := by
  intro hreg
  obtain ⟨hr, rfl⟩ := eq_indexOf_of_regAt hreg
  have hk : k < cfg.cw := of_decide_eq_true hr
  rw [indexOf_c_toNat hv hk] at h
  omega

/-- Settles O7: a step with a host write first at the port is `hostWrite`, whose outcome the register at the index decides. -/
theorem hostWriteStoresOnlyInWritableRegisters : Obligations.HostWriteStoresOnlyInWritableRegisters := by
  intro s rest index w hv hport
  rw [step_of_hostWrite hv hport]
  refine ⟨fun h => ?_, fun h => ?_, fun h => ?_, fun h => ?_, fun k hk h => ?_, fun hcmd ha0 ha1 hterm hc => ?_⟩
  · exact hostWrite_of_cmd (regAt_of_toNat hv (r := .cmd) rfl h)
  · exact hostWrite_of_a0 (regAt_of_toNat hv (r := .a0) rfl h)
  · exact hostWrite_of_a1 (regAt_of_toNat hv (r := .a1) rfl h)
  · exact ⟨symbolPart s.cfg w, symbolPart_toNat s.cfg w, hostWrite_of_term (regAt_of_toNat hv (r := .term) rfl h)⟩
  · exact hostWrite_of_c (regAt_c s.cfg hk h)
  · exact hostWrite_of_not_writable (regAt_ne_of_toNat_ne hcmd) (regAt_ne_of_toNat_ne ha0) (regAt_ne_of_toNat_ne ha1)
      (regAt_ne_of_toNat_ne hterm) (regAt_ne_c hv hc)

/-! ### Execute and the system commands -/

/-- Settles O4: the write to `CMD` executes its word, and a word that decodes runs its command. -/
theorem stepRunsTheDecodedCommand : Obligations.StepRunsTheDecodedCommand := by
  intro s rest w i hv hport hdecode
  rw [step_of_commandWrite hv hport, execute_of_decode hdecode]

/-- Settles O13: NOP ends by `ok` with value 0 over the state as it is (R123). -/
theorem nopOnlyClearsTheReport : Obligations.NopOnlyClearsTheReport := fun s => commit_ok s s 0

/-- Settles O14: RESET ends by `ok` with value 0 over the reset state, whose own report is already the empty one (R48, R124). -/
theorem resetCommandResetsEveryPieceOfState : Obligations.ResetCommandResetsEveryPieceOfState :=
  ⟨decodeWord_encode .reset, fun s => commit_ok s (resetBlock s) 0⟩

end Sys2Proof.Machine

/-! The code table (41_code_table.md): what CTWRITE checks and stores (R140, R142), and what CTREAD returns (R141). -/

namespace Sys2Proof.Machine

/-! ### CTWRITE -/

/-- Settles O15: the three checks are the nested conditions of `execCtwrite_eq`; past them the entry is the code of the
carried value, and the other entries are read as before the write. -/
theorem ctwriteStoresOneEntry : Obligations.CtwriteStoresOneEntry := by
  refine ⟨decodeWord_encode .ctwrite, fun s => ?_⟩
  rw [operandValue_eq_carrierValue, exec, execCtwrite_eq]
  refine ⟨fun hsym => ?_, fun hsym hlen => ?_, fun hsym hlen hvalue => ?_, fun hsym hlen hvalue => ?_⟩
  · rw [if_pos hsym]
    rfl
  · rw [if_neg hsym.not_ge, if_pos hlen]
    rfl
  · rw [if_neg hsym.not_ge, if_neg hlen.not_gt, if_pos hvalue]
    rfl
  · rw [if_neg hsym.not_ge, if_neg hlen.not_gt, if_neg hvalue.not_ge]
    refine ⟨_, rfl, ?_, fun j hj => ?_, fun k hk => readEntry_writeEntry_ne _ _ _ _ hk⟩
    · rw [readEntry_writeEntry_same, codeOfValue_length]
    · rw [readEntry_writeEntry_same, codeOfValue_getElem? _ _ _ hj]

/-! ### CTREAD -/

/-- The value of a code is the sum R27 writes. -/
theorem codeValue_eq_valueOfCode (b : Code) : Claims.codeValue b = valueOfCode b := by
  unfold Claims.codeValue
  induction b with
  | nil => rfl
  | cons x rest ih =>
    rw [valueOfCode, ← ih, List.length_cons, List.range_succ_eq_map, List.map_cons, List.map_map, List.sum_cons]
    simp [Function.comp_def, Nat.sub_sub, Nat.add_comm 1]

/-- Register k of the carrier holds bits 32k + 31 to 32k of the value (R27, R141). -/
theorem carrierOfValue_getElem? {cw k : Nat} (v : Nat) (hk : k < cw) :
    (carrierOfValue cw v)[k]? = some (BitVec.ofNat 32 (v / 2 ^ (32 * k))) := by
  simp [carrierOfValue, hk]

/-- Settles O16: past its one check CTREAD writes the carrier of the entry's value, which has a word for each of the CW registers. -/
theorem ctreadReturnsTheEntry : Obligations.CtreadReturnsTheEntry := by
  refine ⟨decodeWord_encode .ctread, fun s => ?_⟩
  rw [codeValue_eq_valueOfCode, exec, execCtread_eq]
  refine ⟨fun hsym => ?_, fun hsym => ?_⟩
  · rw [if_pos hsym]
    rfl
  · rw [if_neg hsym.not_ge]
    exact ⟨_, rfl, carrierOfValue_length _ _, fun _ hk => carrierOfValue_getElem? _ hk⟩

end Sys2Proof.Machine

/-! The BitBuffer (42_bitbuffer.md): creation (R151), one bit read or written (R152 to R154), one byte read or written (R155, R156). -/

namespace Sys2Proof.Machine

/-! ### BBCREATE -/

theorem zeroBuffer_getElem? {n p : Nat} (hp : p < (zeroBuffer n).length) : (zeroBuffer n)[p]? = some false :=
  List.getElem?_replicate_of_lt (zeroBuffer_length n ▸ hp)

/-- Settles O19: the two checks are the nested conditions of `execBbcreate_eq`; past them the signed length is a natural number. -/
theorem bbcreateMakesAZeroedBuffer : Obligations.BbcreateMakesAZeroedBuffer := by
  intro s
  rw [exec, execBbcreate_eq]
  refine ⟨fun hneg => ?_, fun hpos hbig => ?_, fun hpos hfits => ?_⟩
  · rw [if_pos hneg]
    rfl
  · rw [if_neg hpos.not_gt, if_pos hbig]
    rfl
  · rw [if_neg hpos.not_gt, if_neg hfits.not_gt]
    refine ⟨_, rfl, ?_, fun p hp => zeroBuffer_getElem? hp⟩
    rw [zeroBuffer_length, Int.toNat_of_nonneg hpos]

/-! ### One bit -/

/-- Settles O20: a position that holds a bit lies below the length, and that bit is the result. -/
theorem bbgetReturnsTheBit : Obligations.BbgetReturnsTheBit := by
  refine ⟨decodeWord_encode .bbget, fun s => ?_⟩
  rw [exec, execBbget_eq]
  refine ⟨fun hindex => ?_, fun bit hbit => ?_⟩
  · rw [if_pos hindex]
    rfl
  · have hindex : s.a0.toNat < s.bb.length := (List.getElem?_eq_some_iff.mp hbit).1
    rw [if_neg hindex.not_ge, getBit, List.getD_eq_getElem?_getD, hbit]
    rfl

/-- What a command that is `putBit` behind the check of its position does to the buffer: BBSET and BBCLEAR differ in the bit
only (R153, R154). -/
theorem bitWrite_changes_one_bit {i : Instr} {s : State} {bit : Bool}
    (hexec : exec i s = if s.bb.length ≤ s.a0.toNat then .next (raise s (.indexOutOfRange s.a0))
      else .next (finish { s with bb := putBit s.bb s.a0.toNat bit } 0)) :
    (s.bb.length ≤ s.a0.toNat → exec i s = .next (faultReport s 3 s.a0)) ∧
    (s.a0.toNat < s.bb.length →
      ∃ bb : List Bool, exec i s = .next (okReport { s with bb := bb } 0) ∧ bb.length = s.bb.length ∧
        bb[s.a0.toNat]? = some bit ∧ ∀ q, q ≠ s.a0.toNat → bb[q]? = s.bb[q]?) := by
  rw [hexec]
  refine ⟨fun hindex => ?_, fun hindex => ?_⟩
  · rw [if_pos hindex]
    rfl
  · rw [if_neg hindex.not_ge]
    refine ⟨_, rfl, putBit_length .., ?_, fun q hq => ?_⟩
    · rw [putBit_getElem? _ _ _ _ hindex, if_pos rfl]
    · rw [putBit_getElem? _ _ _ _ hindex, if_neg hq]

/-- Settles O21: BBSET writes the bit 1. -/
theorem bbsetSetsOneBit : Obligations.BbsetSetsOneBit :=
  ⟨decodeWord_encode .bbset, fun s => bitWrite_changes_one_bit (execBbset_eq s)⟩

/-- Settles O22: BBCLEAR writes the bit 0. -/
theorem bbclearClearsOneBit : Obligations.BbclearClearsOneBit := fun s => bitWrite_changes_one_bit (execBbclear_eq s)

/-! ### One byte -/

/-- Settles O23: past its one check BBRDBYTE returns the byte of `readByte`, whose bits are read position by position. -/
theorem bbrdbytePacksEightPositions : Obligations.BbrdbytePacksEightPositions := by
  refine ⟨decodeWord_encode .bbrdbyte, fun s => ?_⟩
  rw [exec, execBbrdbyte_eq]
  refine ⟨fun hindex => ?_, fun hindex => ?_⟩
  · rw [if_pos hindex]
    rfl
  · rw [if_neg hindex.not_ge]
    refine ⟨_, rfl, ?_, fun k hk => ?_⟩
    · rw [readByte_toNat]
      exact readByte_lt _ _
    · rw [readByte_getLsbD _ _ hk, getBit, List.getD_eq_getElem?_getD]

/-- Position 8i + k of the written buffer, if it has one, holds bit 7 - k of the value (R62, R156). -/
theorem writeByte_getElem?_covered {bb : List Bool} {i k : Nat} (v : Word) (hk : k < 8) (hp : 8 * i + k < bb.length) :
    (writeByte bb i v)[8 * i + k]? = some (v.getLsbD (7 - k)) := by
  rw [writeByte_getElem?, if_pos (by omega), Nat.add_sub_cancel_left]

theorem writeByte_getElem?_outside (bb : List Bool) {i q : Nat} (v : Word) (hq : q < 8 * i ∨ 8 * i + 8 ≤ q) :
    (writeByte bb i v)[q]? = bb[q]? := by
  rw [writeByte_getElem?, if_neg (by omega)]

/-- Settles O24: the index is checked before the value, as `execBbwrbyte_eq` nests them; past both checks a position lies
in the byte or outside it. -/
theorem bbwrbyteWritesEightPositions : Obligations.BbwrbyteWritesEightPositions := by
  intro s
  rw [exec, execBbwrbyte_eq]
  refine ⟨fun hindex => ?_, fun hindex hvalue => ?_, fun hindex hvalue => ?_⟩
  · rw [if_pos hindex]
    rfl
  · rw [if_neg hindex.not_ge, if_pos hvalue]
    rfl
  · rw [if_neg hindex.not_ge, if_neg hvalue.not_gt]
    exact ⟨_, rfl, writeByte_length .., fun _ hk hp => writeByte_getElem?_covered _ hk hp,
      fun _ hq => writeByte_getElem?_outside _ _ hq⟩

end Sys2Proof.Machine

/-! The symbol streams (43_symbol_streams.md): the source stream emptied, extended and terminated (R170, R171, R173), one symbol of
either stream read (R172, R174). -/

namespace Sys2Proof.Machine

/-! ### SRCTERM -/

/-- Settles O29: that the stream ends with TERM is what the first check of `execSrcterm_eq` asks of the last symbol. -/
theorem srctermAppendsTheTerminator : Obligations.SrctermAppendsTheTerminator := by
  intro s
  rw [exec, execSrcterm_eq, ← List.getLast?_eq_some_iff]
  refine ⟨fun hends => ?_, fun hends hfull => ?_, fun hends hroom => ?_⟩
  · rw [if_pos hends]
    rfl
  · rw [if_neg hends, if_pos hfull]
    rfl
  · rw [if_neg hends, if_neg hroom]
    rfl

/-- A SRCTERM that does not fault leaves a stream that ends with TERM: it ended so before, or TERM was appended (R173). -/
theorem srcterm_leaves_terminated {s t : State} (h : exec .srcterm s = .next t) (herr : t.err = false) :
    t.src.getLast? = some t.term := by
  rw [exec, execSrcterm_eq] at h
  split_ifs at h with hends hfull <;> cases h
  · exact hends
  · cases herr
  · exact List.getLast?_concat

/-- Settles O30: the second SRCTERM meets a terminated stream, the first clause of O29 (R173 (c)). -/
theorem srctermTwiceAppendsAtMostOnce : Obligations.SrctermTwiceAppendsAtMostOnce := by
  intro s t h herr
  obtain ⟨hterminated, -⟩ := srctermAppendsTheTerminator t
  exact hterminated (List.getLast?_eq_some_iff.mp (srcterm_leaves_terminated h herr))

/-! ### SRCCLEAR and SRCPUSH -/

/-- Settles O27: SRCCLEAR ends by `ok` with value 0 over the state with an empty `SRC` (R170). -/
theorem srcclearEmptiesTheStream : Obligations.SrcclearEmptiesTheStream :=
  ⟨decodeWord_encode .srcclear, fun s => commit_ok s { s with src := [] } 0⟩

/-- Settles O28: the two checks are the nested conditions of `execSrcpush_eq`; past them the symbol stands at the end (R171). -/
theorem srcpushAppendsOneSymbol : Obligations.SrcpushAppendsOneSymbol := by
  refine ⟨decodeWord_encode .srcpush, fun s => ?_⟩
  rw [exec, execSrcpush_eq]
  refine ⟨fun hsym => ?_, fun hsym hfull => ?_, fun hsym hroom => ?_⟩
  · rw [if_pos hsym]
    rfl
  · rw [if_neg hsym.not_ge, if_pos hfull]
    rfl
  · rw [if_neg hsym.not_ge, if_neg hroom, List.length_append, List.length_singleton]
    rfl

/-! ### SRCREAD and DSTREAD -/

/-- What a command that looks up one symbol behind the check of its index does: SRCREAD and DSTREAD differ in the stream only
(R172, R174). -/
theorem symbolRead_returns_symbol {i : Instr} {s : State} {stream : List Symbol}
    (hexec : exec i s = if stream.length ≤ s.a0.toNat then .next (raise s (.indexOutOfRange s.a0))
      else .next (finish s (stream.getD s.a0.toNat 0))) :
    (stream.length ≤ s.a0.toNat → exec i s = .next (faultReport s 3 s.a0)) ∧
    (∀ sym : Symbol, stream[s.a0.toNat]? = some sym → exec i s = .next (okReport s sym)) := by
  rw [hexec]
  refine ⟨fun hindex => ?_, fun sym hsym => ?_⟩
  · rw [if_pos hindex]
    rfl
  · have hindex : s.a0.toNat < stream.length := (List.getElem?_eq_some_iff.mp hsym).1
    rw [if_neg hindex.not_ge, List.getD_eq_getElem?_getD, hsym]
    rfl

/-- Settles O31: SRCREAD reads the source stream. -/
theorem srcreadReturnsTheSymbol : Obligations.SrcreadReturnsTheSymbol :=
  ⟨decodeWord_encode .srcread, fun s => symbolRead_returns_symbol (execSrcread_eq s)⟩

/-- Settles O32: DSTREAD reads the decoded stream. -/
theorem dstreadReturnsTheSymbol : Obligations.DstreadReturnsTheSymbol := fun s => symbolRead_returns_symbol (execDstread_eq s)

end Sys2Proof.Machine

/-! The encoder (44_encoder.md): the size of the message (R186), and the message left in the buffer (R187, R188). -/

namespace Sys2Proof.Machine

/-! ### Pass 1 over the whole stream -/

/-- Pass 1 of a stream whose symbols all have an entry gives the length of the message (R188 (a)). -/
theorem size_of_allCoded {ct : CodeTable} {stream : List Symbol} (h : AllCoded ct stream) :
    sizePass ct 0 0 stream = .ok (message ct stream).length := by
  rw [sizePass_of_allCoded ct stream h, Nat.zero_add]

/-- What a command that raises each fault of pass 1 does with a stream that has an unknown symbol: ENCSIZE and ENCODE
differ only in what follows pass 1 (R186, R187). -/
theorem sizing_faults_on_first_unknown {i : Instr} {s : State}
    (hexec : ∀ f, sizePass s.ct 0 0 s.src = .error f → exec i s = .next (raise s f))
    (front : List Symbol) (sym : Symbol) (rest : List Symbol) (hsrc : s.src = front ++ sym :: rest)
    (hfront : AllCoded s.ct front) (hsym : readEntry s.ct sym.toNat = []) :
    exec i s = .next (faultReport s 4 (BitVec.ofNat 32 front.length)) := by
  have hsize : sizePass s.ct 0 0 s.src = .error (.unknownSymbol front.length) := by
    rw [hsrc, sizePass_first_unknown s.ct front sym rest hfront hsym, Nat.zero_add]
  exact hexec _ hsize

/-! ### ENCSIZE and ENCODE -/

/-- Settles O33: ENCSIZE is pass 1, and the length of the message is the sum of the lengths of its codes. -/
theorem encsizeSumsTheCodeLengths : Obligations.EncsizeSumsTheCodeLengths := by
  intro s
  refine ⟨sizing_faults_on_first_unknown fun f hf => ?_, fun hcoded => ?_⟩
  · rw [exec, execEncsize_eq, hf]
  · rw [exec, execEncsize_eq, size_of_allCoded hcoded, ← message_length_eq_sum]
    rfl

/-- Past pass 1 ENCODE makes one check; a message that fits the buffer becomes its contents (R187, R188). -/
theorem exec_encode_of_allCoded {s : State} (h : AllCoded s.ct s.src) :
    exec .encode s =
      if (message s.ct s.src).length > s.cfg.bbCap then .next (raise s (.capacity .bb))
      else .next (finish { s with bb := message s.ct s.src } (BitVec.ofNat 32 (message s.ct s.src).length)) := by
  simp only [exec, execEncode_eq, size_of_allCoded h, writePass_eq_message]

/-- Settles O34: a fault of pass 1 ends ENCODE before the check of BB_CAP that `exec_encode_of_allCoded` makes. -/
theorem encodeLeavesTheConcatenatedCodes : Obligations.EncodeLeavesTheConcatenatedCodes := by
  intro s
  refine ⟨sizing_faults_on_first_unknown fun f hf => ?_, fun hcoded hbig => ?_, fun hcoded hfits => ?_⟩
  · rw [exec, execEncode_eq, hf]
  · rw [exec_encode_of_allCoded hcoded, if_pos hbig]
    rfl
  · rw [exec_encode_of_allCoded hcoded, if_neg hfits.not_gt]
    rfl

end Sys2Proof.Machine

/-! The decoder (45_decoder.md): the trie emptied (R201), a code added (R202, R203), the table built (R204), the decode walk
(R205) and the round trip (R207). -/

namespace Sys2Proof.Machine

/-! ### `Insert` from the root -/

/-- The same code for the same symbol again (R202). -/
theorem insertCode_same {cfg : Config} {t : Trie} (h : TrieInv cfg t) {sym : Symbol} {b : Code}
    (hstored : leafAt t b = some sym) : insertCode cfg.nodeCap t sym b = .ok t :=
  insertFrom_same cfg.nodeCap sym b t 0 [] (h.tree 0) rfl hstored

/-- A code comparable with a stored one, whatever room there is (R202). -/
theorem insertCode_conflict {cfg : Config} {t : Trie} (h : TrieInv cfg t) {sym x : Symbol} {b q : Code}
    (hstored : leafAt t q = some x) (hcmp : comparable q b) (hne : ¬ (q = b ∧ x = sym)) :
    insertCode cfg.nodeCap t sym b = .error (.conflictingCode sym) :=
  insertFrom_conflict cfg.nodeCap sym b t 0 [] (h.tree 0) rfl hstored hcmp hne

/-- A code comparable with no stored one, and too little room (R202). -/
theorem insertCode_full {cfg : Config} {t : Trie} (h : TrieInv cfg t) {sym : Symbol} {b : Code}
    (hnc : ∀ q x, leafAt t q = some x → ¬ comparable q b) (hroom : cfg.nodeCap < t.length + missingNodes t 0 b) :
    insertCode cfg.nodeCap t sym b = .error (.capacity .trie) :=
  insertFrom_full cfg.nodeCap sym b t 0 [] (h.tree 0) rfl hnc h.size.2 hroom

/-! ### TRIECLEAR and TRIEADD -/

/-- Settles O36: TRIECLEAR ends by `ok` with value 0 over the root alone. -/
theorem trieclearLeavesTheRootAlone : Obligations.TrieclearLeavesTheRootAlone :=
  fun s => commit_ok s { s with trie := rootAlone } 0

/-- Settles O37: the checks are the nested conditions of `execTrieadd_eq`; a code of length 0 passes the third
only with the value 0. -/
theorem trieaddChecksItsOperandsInOrder : Obligations.TrieaddChecksItsOperandsInOrder := by
  intro s
  rw [operandValue_eq_carrierValue, exec, execTrieadd_eq]
  refine ⟨fun hsym => ?_, fun hsym hlen => ?_, fun hsym hlen hvalue => ?_, fun hsym hlen hvalue => ?_⟩
  · rw [if_pos hsym]
    rfl
  · rw [if_neg hsym.not_ge, if_pos hlen]
    rfl
  · rw [if_neg hsym.not_ge, if_neg hlen.not_gt, if_pos hvalue]
    rfl
  · rw [if_neg hsym.not_ge, if_neg (by omega), if_neg (by simp [hlen, hvalue]), if_pos hlen]
    rfl

/-- Registers that carry a symbol in range and a code of at most MAXLEN bits pass the three checks of
`CodeOperand()` (R27, R142). -/
theorem codeOperand_of_carried {s : State} {b : Code} (hsym : s.a0.toNat < s.cfg.nsym) (hlen : b.length ≤ s.cfg.maxlen)
    (ha1 : s.a1.toNat = b.length) (hvalue : Claims.operandValue s = Claims.codeValue b) : codeOperand s = .ok (s.a0, b) := by
  rw [operandValue_eq_carrierValue, codeValue_eq_valueOfCode] at hvalue
  rw [codeOperand_eq, ha1, hvalue, if_neg hsym.not_ge, if_neg hlen.not_gt, if_neg (valueOfCode_lt b).not_ge,
    codeOfValue_valueOfCode]

/-- Past its operand checks TRIEADD is `Insert` of the carried code, and the result is the new `NODES` (R203). -/
theorem exec_trieadd_of_codeOperand {s : State} {sym : Symbol} {b : Code} (hb : b ≠ []) (h : codeOperand s = .ok (sym, b)) :
    exec .trieadd s =
      commit s ((insertCode s.cfg.nodeCap s.trie sym b).map fun t => ({ s with trie := t }, BitVec.ofNat 32 t.length)) := by
  rw [exec, execTrieadd, h]
  simp only [bind_ok, raiseIf_neg (mt List.length_eq_zero_iff.mp hb)]
  rfl

/-- Settles O38: `insertCode_same` for the same pair again, `insertCode_new` for a code comparable with none. -/
theorem trieaddAddsExactlyOneLeaf : Obligations.TrieaddAddsExactlyOneLeaf := by
  intro s b htrie hsym hlen hb ha1 hvalue
  have hexec := exec_trieadd_of_codeOperand hb (codeOperand_of_carried hsym hlen ha1 hvalue)
  refine ⟨fun hstored => ?_, fun hnc hroom => ?_⟩
  · rw [hexec, insertCode_same htrie hstored]
    rfl
  · obtain ⟨t, hinsert, hsize, hleaves, -, -⟩ := insertCode_new htrie hb hsym hnc hroom
    refine ⟨t, ?_, hsize, hleaves⟩
    rw [hexec, hinsert]
    rfl

/-- Settles O39: the two faults of `Insert` from the root, each raised over the state as it was. -/
theorem trieaddFaultsLeaveTheTrie : Obligations.TrieaddFaultsLeaveTheTrie := by
  intro s b htrie hsym hlen hb ha1 hvalue
  have hexec := exec_trieadd_of_codeOperand hb (codeOperand_of_carried hsym hlen ha1 hvalue)
  refine ⟨fun q x hstored hcmp hne => ?_, fun hnc hroom => ?_⟩
  · rw [hexec, insertCode_conflict htrie hstored hcmp hne]
    rfl
  · rw [hexec, insertCode_full htrie hnc hroom]
    rfl

/-! ### The trie of the lower symbols -/

section Built

variable {cfg : Config} {ct : CodeTable} {t : Trie}

/-- The symbol values are inserted in ascending order, so a table with no two comparable
codes is inserted whole if its trie fits (R204). -/
theorem build_of_prefixFree {m : Nat} (hcap : 1 ≤ cfg.nodeCap) (hm : m ≤ cfg.nsym) (hfree : PrefixFreeBelow ct m)
    (hroom : trieSize (codesOf ct (List.range m)) ≤ cfg.nodeCap) :
    ∃ t, buildFrom cfg.nodeCap ct (List.range m) rootAlone 0 = .ok (t, (codesOf ct (List.range m)).length) ∧
      Holds cfg ct (List.range m) t := by
  have hnc : ∀ pre a post, List.range m = pre ++ a :: post → readEntry ct a ≠ [] → ∀ x ∈ [] ++ pre, readEntry ct x ≠ [] →
      ¬ comparable (readEntry ct x) (readEntry ct a) := by
    intro pre a post hsplit ha x hx hx0
    have hrising : (pre ++ a :: post).Pairwise (· < ·) := hsplit ▸ List.pairwise_lt_range
    obtain ⟨-, -, hbefore⟩ := List.pairwise_append.mp hrising
    have hxa : x < a := hbefore x hx a List.mem_cons_self
    have ham : a < m := List.mem_range.mp (by simp [hsplit])
    exact hfree x (hxa.trans ham) a ham hxa.ne hx0 ha
  obtain ⟨t, hbuild, hholds⟩ := buildFrom_holds (List.range m) [] rootAlone 0 (holds_rootAlone hcap)
    (fun a ha => (List.mem_range.mp ha).trans_le hm) hnc hroom
  exact ⟨t, by rw [hbuild, Nat.zero_add], hholds⟩

/-- The entry of an inserted symbol value is a leaf. -/
theorem Holds.leafAt_entry {l : List Nat} (h : Holds cfg ct l t) {a : Nat} (ha : a ∈ l) (hentry : readEntry ct a ≠ []) :
    leafAt t (readEntry ct a) = some (BitVec.ofNat 32 a) :=
  (h.leaves _ _).mpr ⟨hentry, a, ha, rfl, rfl⟩

/-- A code that is comparable with no inserted one is comparable with no leaf. -/
theorem Holds.not_comparable {l : List Nat} (h : Holds cfg ct l t) {b : Code}
    (hnc : ∀ a ∈ l, readEntry ct a ≠ [] → ¬ comparable (readEntry ct a) b) :
    ∀ q x, leafAt t q = some x → ¬ comparable q b := by
  intro q x hq
  obtain ⟨hq0, a, ha, -, rfl⟩ := (h.leaves q x).mp hq
  exact hnc a ha hq0

/-- What `Insert` must allocate for one more code is what that code adds to the size of the trie (R202). -/
theorem Holds.trieSize_append {l : List Nat} (h : Holds cfg ct l t) {b : Code} (hb : b ≠ [])
    (hnc : ∀ q x, leafAt t q = some x → ¬ comparable q b) :
    trieSize (codesOf ct l ++ [b]) = t.length + missingNodes t 0 b := by
  obtain ⟨u, -, hsize, -, hpaths, htree⟩ := insertFrom_new _ 0 b t 0 [] (h.inv.tree 0) rfl hb hnc le_rfl
  rw [← hsize]
  refine ((htree 0).length_eq_trieSize _ fun p => ?_).symm
  rw [hpaths, h.paths]
  simp [or_and_right, exists_or, or_assoc]

end Built

/-! ### TRIEBUILD -/

/-- A symbol value fits the word that carries it: SYM_W is at most 16 (R4, R9). -/
theorem symbolValue_toNat {cfg : Config} (h : cfg.Valid) {a : Nat} (ha : a < cfg.nsym) : (BitVec.ofNat 32 a).toNat = a := by
  obtain ⟨⟨-, hsymW⟩, -⟩ := h
  have hnsym : cfg.nsym ≤ 2 ^ 16 := Nat.pow_le_pow_right (by decide) hsymW
  exact Nat.mod_eq_of_lt (by omega)

/-- TRIEBUILD over a table with no two comparable codes whose trie fits (R204). -/
theorem exec_triebuild_of_prefixFree {s : State} (hv : s.cfg.Valid) (hfree : PrefixFreeBelow s.ct s.cfg.nsym)
    (hroom : trieSize (codesOf s.ct (List.range s.cfg.nsym)) ≤ s.cfg.nodeCap) :
    ∃ t, exec .triebuild s =
        .next (finish { s with trie := t } (BitVec.ofNat 32 (codesOf s.ct (List.range s.cfg.nsym)).length)) ∧
      Holds s.cfg s.ct (List.range s.cfg.nsym) t := by
  obtain ⟨t, hbuild, hholds⟩ := build_of_prefixFree (one_le_nodeCap_of_valid hv) le_rfl hfree hroom
  refine ⟨t, ?_, hholds⟩
  rw [exec, execTriebuild_eq, hbuild]

/-- Settles O40: the loop leaves a trie that `Holds` all entries; a symbol value below NSYM is the word that stores it. -/
theorem triebuildHoldsExactlyTheTable : Obligations.TriebuildHoldsExactlyTheTable := by
  intro s hv hfree hroom
  obtain ⟨t, hexec, hholds⟩ := exec_triebuild_of_prefixFree hv hfree hroom
  refine ⟨t, hexec, hholds.length_eq, fun q sym => ⟨fun hq => ?_, ?_⟩⟩
  · obtain ⟨hq0, a, ha, rfl, hentry⟩ := (hholds.leaves q sym).mp hq
    rw [List.mem_range] at ha
    rw [symbolValue_toNat hv ha]
    exact ⟨hq0, ha, hentry⟩
  · rintro ⟨hq0, hsym, rfl⟩
    rw [hholds.leafAt_entry (List.mem_range.mpr hsym) hq0, BitVec.ofNat_toNat, BitVec.setWidth_eq]

/-- TRIEBUILD ends by the fault of the first symbol value whose `Insert` faults (R204, R264). -/
theorem exec_triebuild_of_fault {s : State} {m n : Nat} {t : Trie} {f : Raised} (hm : m < s.cfg.nsym)
    (hentry : readEntry s.ct m ≠ []) (hbelow : buildFrom s.cfg.nodeCap s.ct (List.range m) rootAlone 0 = .ok (t, n))
    (hfault : insertCode s.cfg.nodeCap t (BitVec.ofNat 32 m) (readEntry s.ct m) = .error f) :
    exec .triebuild s = .next (raise { s with trie := rootAlone } f) := by
  obtain ⟨k, hk⟩ := Nat.exists_eq_add_of_lt hm
  have hsplit : List.range s.cfg.nsym = List.range m ++ m :: (List.range k).map (m + 1 + ·) := by
    rw [hk, Nat.add_right_comm, List.range_add, List.range_succ, List.append_assoc]
    rfl
  rw [exec, execTriebuild_eq, hsplit, buildFrom_append, hbelow]
  simp only [buildFrom, if_pos (mt List.length_eq_zero_iff.mp hentry), hfault]

/-- Settles O41: the symbols below `m` are all inserted, so the first fault is that of `Insert` of `m`'s code: with a
comparable code of a lower symbol a conflict, with none of them the room. -/
theorem triebuildFaultsAtTheFirstFailingSymbol : Obligations.TriebuildFaultsAtTheFirstFailingSymbol := by
  intro s m hv hm hentry hfree hroom
  obtain ⟨t, hbelow, hholds⟩ := build_of_prefixFree (one_le_nodeCap_of_valid hv) hm.le hfree hroom
  refine ⟨?_, fun hfree' hfull => ?_⟩
  · rintro ⟨a, ham, ha, hcmp⟩
    have hne : BitVec.ofNat 32 a ≠ BitVec.ofNat 32 m := by
      intro hword
      have hvalue := congrArg BitVec.toNat hword
      rw [symbolValue_toNat hv (ham.trans hm), symbolValue_toNat hv hm] at hvalue
      exact ham.ne hvalue
    have hstored := hholds.leafAt_entry (List.mem_range.mpr ham) ha
    exact exec_triebuild_of_fault hm hentry hbelow (insertCode_conflict hholds.inv hstored hcmp fun ⟨_, hword⟩ => hne hword)
  · have hnc := hholds.not_comparable (b := readEntry s.ct m) fun a ha ha0 =>
      have ham := List.mem_range.mp ha
      hfree' a (ham.trans m.lt_succ_self) m m.lt_succ_self ham.ne ha0 hentry
    have hcodes : codesOf s.ct (List.range (m + 1)) = codesOf s.ct (List.range m) ++ [readEntry s.ct m] := by
      simp [codesOf, List.range_succ, hentry]
    rw [hcodes, hholds.trieSize_append hentry hnc] at hfull
    exact exec_triebuild_of_fault hm hentry hbelow (insertCode_full hholds.inv hnc hfull)

/-! ### DECODE -/

/-- DECODE of a buffer that starts with stored codes that fit: what follows them is read from the root (R205). -/
theorem exec_decode_after_codes {s : State} {pairs : List (Code × Symbol)} {rest : Code} (htrie : TrieInv s.cfg s.trie)
    (hpairs : ∀ e ∈ pairs, leafAt s.trie e.1 = some e.2) (hfits : pairs.length ≤ s.cfg.dstCap)
    (hbb : s.bb = pairs.flatMap (·.1) ++ rest) :
    exec .decode s =
      commit { s with dst := [] }
        ((walkBits s.trie s.cfg.dstCap rest (pairs.flatMap (·.1)).length 0 (pairs.flatMap (·.1)).length (pairs.map (·.2))).map
          fun dst => ({ s with dst := dst }, BitVec.ofNat 32 dst.length)) := by
  have hwalk := walkBits_codes htrie s.cfg.dstCap pairs hpairs rest 0 [] (by simpa using hfits)
  rw [Nat.zero_add, List.nil_append] at hwalk
  rw [exec, execDecode, hbb, hwalk]
  rfl

/-- DECODE of stored codes that fit, with nothing after them (R205). -/
theorem exec_decode_of_codes {s : State} {pairs : List (Code × Symbol)} (htrie : TrieInv s.cfg s.trie)
    (hpairs : ∀ e ∈ pairs, leafAt s.trie e.1 = some e.2) (hfits : pairs.length ≤ s.cfg.dstCap)
    (hbb : s.bb = pairs.flatMap (·.1)) :
    exec .decode s = .next (finish { s with dst := pairs.map (·.2) } (BitVec.ofNat 32 pairs.length)) := by
  rw [exec_decode_after_codes (rest := []) htrie hpairs hfits (by simpa using hbb), ← List.length_map (as := pairs) (·.2)]
  rfl

/-- Settles O42: past the codes the walk is at the root, and each clause is what it does with one kind of rest. -/
theorem decodeWalksTheTrie : Obligations.DecodeWalksTheTrie := by
  intro s pairs htrie hpairs hfits
  refine ⟨exec_decode_of_codes htrie hpairs hfits, fun tail n hbb htail hpath hleaf => ?_,
    fun tail bit rest n hbb hpath hleaf hchild => ?_, fun code sym rest hbb hcode hfull => ?_⟩
  · have hn : n ≠ 0 := by
      rintro rfl
      exact htail ((htrie.tree 0).path_inj hpath rfl)
    rw [exec_decode_after_codes htrie hpairs hfits hbb, ← List.append_nil tail,
      walkBits_inside htrie _ _ _ _ _ _ _ _ hpath hleaf, walkBits, if_pos hn]
    rfl
  · rw [List.append_assoc] at hbb
    rw [exec_decode_after_codes htrie hpairs hfits hbb, walkBits_inside htrie _ _ _ _ _ _ _ _ hpath hleaf, walkBits, hchild]
    rfl
  · rw [List.append_assoc] at hbb
    rw [exec_decode_after_codes htrie hpairs hfits hbb, walkBits_code htrie _ _ _ _ _ _ hcode,
      if_pos (by rw [List.length_map, hfull])]
    rfl

/-! ### The round trip -/

/-- DECODE of the message of a stream, with the trie of the table that made it (R207). -/
theorem exec_decode_of_message {s : State} {stream : List Symbol} (hholds : Holds s.cfg s.ct (List.range s.cfg.nsym) s.trie)
    (hsymbols : ∀ sym ∈ stream, sym.toNat < s.cfg.nsym) (hcoded : AllCoded s.ct stream) (hfits : stream.length ≤ s.cfg.dstCap)
    (hbb : s.bb = message s.ct stream) :
    exec .decode s = .next (finish { s with dst := stream } (BitVec.ofNat 32 stream.length)) := by
  have hpairs : ∀ e ∈ stream.map (fun sym => (readEntry s.ct sym.toNat, sym)), leafAt s.trie e.1 = some e.2 := by
    rintro _ he
    obtain ⟨sym, hsym, rfl⟩ := List.mem_map.mp he
    simpa using hholds.leafAt_entry (List.mem_range.mpr (hsymbols sym hsym)) (hcoded sym hsym)
  have hdecode := exec_decode_of_codes hholds.inv hpairs (by simpa using hfits) (by simpa [message, List.flatMap_map] using hbb)
  simpa [Function.comp_def] using hdecode

/-- Settles O43: in either order ENCODE leaves the message and TRIEBUILD the trie of the table, and DECODE
reads only those two. -/
theorem roundTripGivesTheStreamBack : Obligations.RoundTripGivesTheStreamBack := by
  intro s hv hfree hsymbols hcoded hmessage hroom hfits
  have hencode : ∀ u : State, u.cfg = s.cfg → u.ct = s.ct → u.src = s.src → exec .encode u =
      .next (finish { u with bb := message s.ct s.src } (BitVec.ofNat 32 (message s.ct s.src).length)) := by
    intro u hcfg hct hsrc
    rw [exec_encode_of_allCoded (by rwa [hct, hsrc]), hct, hsrc, if_neg (by rw [hcfg]; exact hmessage.not_gt)]
  refine ⟨?_, ?_⟩
  · obtain ⟨t, hbuild, hholds⟩ := exec_triebuild_of_prefixFree
      (s := finish { s with bb := message s.ct s.src } (BitVec.ofNat 32 (message s.ct s.src).length)) hv hfree hroom
    exact ⟨_, _, _, hencode s rfl rfl rfl, hbuild, exec_decode_of_message hholds hsymbols hcoded hfits rfl, rfl, rfl, fun _ => rfl⟩
  · obtain ⟨t, hbuild, hholds⟩ := exec_triebuild_of_prefixFree hv hfree hroom
    exact ⟨_, _, _, hbuild, hencode _ rfl rfl rfl, exec_decode_of_message hholds hsymbols hcoded hfits rfl, rfl, rfl, fun _ => rfl⟩

end Sys2Proof.Machine

/-! The host's code construction (48_host_code_construction.md): what the FrequencyAnalyzer leaves (R231), the merge loop as the
growth of full code trees (R234), and the three properties of a built table (R234, R236, R242). -/

namespace Sys2Proof.Machine

/-! ### The FrequencyAnalyzer -/

/-- The symbols of a table in strictly rising order, as `countSymbol` keeps them (R231). -/
def Rising (t : FreqTable) : Prop := t.Pairwise (fun e f => e.1.toNat < f.1.toNat)

theorem mem_symbols_countSymbol {sym x : Symbol} (t : FreqTable) :
    x ∈ (countSymbol sym t).map (·.1) ↔ x = sym ∨ x ∈ t.map (·.1) := by
  fun_induction countSymbol sym t with
  | case1 => simp
  | case2 => simp
  | case3 => simp
  | case4 s n rest _ _ ih =>
    rw [List.map_cons, List.mem_cons, ih]
    simp only [List.map_cons, List.mem_cons]
    tauto

/-- An entry comes first when its symbol is below, or else one more occurrence or an insertion further down. -/
theorem rising_countSymbol {sym : Symbol} {t : FreqTable} (h : Rising t) : Rising (countSymbol sym t) := by
  unfold Rising at *
  fun_induction countSymbol sym t with
  | case1 => simp
  | case2 s n rest hlt =>
    obtain ⟨hs, -⟩ := List.pairwise_cons.mp h
    refine List.pairwise_cons.mpr ⟨List.forall_mem_cons.mpr ⟨hlt, fun e he => hlt.trans (hs e he)⟩, h⟩
  | case3 => simpa using h
  | case4 s n rest hlt hne ih =>
    obtain ⟨hs, hrest⟩ := List.pairwise_cons.mp h
    refine List.pairwise_cons.mpr ⟨fun e he => ?_, ih hrest⟩
    obtain heq | hold := (mem_symbols_countSymbol rest).mp (List.mem_map_of_mem he)
    · have hne' : sym.toNat ≠ s.toNat := mt BitVec.eq_of_toNat_eq hne
      exact heq ▸ lt_of_le_of_ne (not_lt.mp hlt) hne'.symm
    · obtain ⟨f, hf, hfe⟩ := List.mem_map.mp hold
      exact hfe ▸ hs f hf

theorem rising_foldl_countSymbol (stream : List Symbol) {t : FreqTable} (h : Rising t) :
    Rising (stream.foldl (fun t sym => countSymbol sym t) t) := by
  induction stream generalizing t with
  | nil => exact h
  | cons sym stream ih => exact ih (rising_countSymbol h)

theorem mem_symbols_foldl_countSymbol {x : Symbol} (stream : List Symbol) (t : FreqTable) :
    x ∈ (stream.foldl (fun t sym => countSymbol sym t) t).map (·.1) ↔ x ∈ stream ∨ x ∈ t.map (·.1) := by
  induction stream generalizing t with
  | nil => simp
  | cons sym stream ih =>
    rw [List.foldl_cons, ih, mem_symbols_countSymbol, List.mem_cons]
    tauto

theorem analyze_eq_ok {stream : List Symbol} {table : FreqTable} (h : analyze stream = .ok table) :
    stream ≠ [] ∧ table = stream.foldl (fun t sym => countSymbol sym t) [] := by
  unfold analyze at h
  split at h
  · cases h
  · exact ⟨‹_›, by cases h; rfl⟩

/-- A frequency table has an entry for each symbol of the stream and for no other (R231). -/
theorem mem_symbols_analyze {stream : List Symbol} {table : FreqTable} (h : analyze stream = .ok table) {x : Symbol} :
    x ∈ table.map (·.1) ↔ x ∈ stream := by
  rw [(analyze_eq_ok h).2, mem_symbols_foldl_countSymbol]
  simp

/-- A frequency table has one entry per symbol (R231). -/
theorem nodup_symbols_analyze {stream : List Symbol} {table : FreqTable} (h : analyze stream = .ok table) :
    (table.map (·.1)).Nodup := by
  have hrising : Rising table := (analyze_eq_ok h).2 ▸ rising_foldl_countSymbol stream List.Pairwise.nil
  exact List.pairwise_map.mpr (hrising.imp fun hlt heq => hlt.ne (congrArg BitVec.toNat heq))

/-- A stream that is not empty has one distinct symbol (R236) or at least two. -/
theorem analyze_singleton_or_two_le {stream : List Symbol} {table : FreqTable} (h : analyze stream = .ok table) :
    (∃ sym n, table = [(sym, n)]) ∨ 2 ≤ table.length := by
  match table with
  | [] =>
    obtain ⟨sym, hsym⟩ := List.exists_mem_of_ne_nil stream (analyze_eq_ok h).1
    simpa using (mem_symbols_analyze h).mpr hsym
  | [(sym, n)] => exact .inl ⟨sym, n, rfl⟩
  | _ :: _ :: _ => exact .inr (by simp)

/-! ### Full code trees -/

/-- The codes at the leaves of a full binary tree: a leaf alone, or the codes of two subtrees behind the bits 1 and 0 (R242). -/
inductive FullCode : List Code → Prop
  | leaf : FullCode [[]]
  | node {l r : List Code} (hl : FullCode l) (hr : FullCode r) : FullCode (l.map (true :: ·) ++ r.map (false :: ·))

namespace FullCode

theorem length_pos {l : List Code} (h : FullCode l) : 0 < l.length := by
  induction h with
  | leaf => simp
  | node _ _ ihl _ =>
    rw [List.length_append, List.length_map]
    omega

/-- A tree of k leaves is at most k - 1 deep (R234). -/
theorem code_length_lt {l : List Code} (h : FullCode l) : ∀ p ∈ l, p.length < l.length := by
  induction h with
  | leaf => simp
  | node hl hr ihl ihr =>
    have := hl.length_pos
    have := hr.length_pos
    simp only [List.length_append, List.length_map]
    refine List.forall_mem_append.mpr ⟨List.forall_mem_map.mpr fun p hp => ?_, List.forall_mem_map.mpr fun p hp => ?_⟩
    · have := ihl p hp
      rw [List.length_cons]
      omega
    · have := ihr p hp
      rw [List.length_cons]
      omega

theorem code_ne_nil {l : List Code} (h : FullCode l) (hsize : 2 ≤ l.length) : ∀ p ∈ l, p ≠ [] := by
  cases h with
  | leaf => simp at hsize
  | node => simp [or_imp, forall_and]

/-- Codes of one subtree stay incomparable behind a common bit, and two different first bits tell the subtrees apart. -/
theorem prefixFree {l : List Code} (h : FullCode l) : l.Pairwise (fun p q => ¬ comparable p q) := by
  induction h with
  | leaf => simp
  | node _ _ ihl ihr =>
    refine List.pairwise_append.mpr ⟨?_, ?_, ?_⟩
    · simpa [List.pairwise_map, comparable] using ihl
    · simpa [List.pairwise_map, comparable] using ihr
    · simp [comparable]

/-- Kraft's equality (R242), scaled by 2^k for any k no less than the number of leaves: each subtree makes up one half of it. -/
theorem kraft_sum {l : List Code} (h : FullCode l) {k : Nat} (hk : l.length ≤ k) :
    (l.map (fun p => 2 ^ (k - p.length))).sum = 2 ^ k := by
  induction h generalizing k with
  | leaf => simp
  | node hl hr ihl ihr =>
    have := hl.length_pos
    have := hr.length_pos
    rw [List.length_append, List.length_map, List.length_map] at hk
    obtain ⟨k, rfl⟩ : ∃ m, k = m + 1 := ⟨k - 1, by omega⟩
    have hleft := ihl (k := k) (by omega)
    have hright := ihr (k := k) (by omega)
    simp only [List.map_append, List.map_map, Function.comp_def, List.length_cons, Nat.add_sub_add_right, List.sum_append,
      hleft, hright]
    rw [pow_succ, mul_two]

end FullCode

/-! ### The merge loop -/

theorem enqueue_perm (e : WeightEntry) (q : List WeightEntry) : (enqueue e q).Perm (e :: q) := by
  fun_induction enqueue e q with
  | case1 => exact .refl _
  | case2 => exact .refl _
  | case3 x rest _ ih => exact (ih.cons x).trans (.swap e x rest)

theorem initialQueue_perm (t : FreqTable) : (initialQueue t).Perm (t.map fun e => ⟨e.2, [e.1]⟩) := by
  induction t with
  | nil => exact .refl _
  | cons e t ih => exact (enqueue_perm _ _).trans (ih.cons _)

/-- The accumulated bits of every symbol, as a function, after `appendBit`. -/
def appendBitTo (group : List Symbol) (bit : Bool) (bits : Symbol → Code) : Symbol → Code :=
  fun s => if s ∈ group then bits s ++ [bit] else bits s

theorem appendBit_map (group : List Symbol) (bit : Bool) (bits : Symbol → Code) (symbols : List Symbol) :
    appendBit group bit (symbols.map fun s => (s, bits s)) = symbols.map fun s => (s, appendBitTo group bit bits s) := by
  simp only [appendBit, List.map_map]
  refine List.map_congr_left fun s _ => ?_
  simp only [Function.comp_apply, appendBitTo]
  split <;> rfl

/-- The codes of a group's symbols: their accumulated bits, last bit first (R235). -/
def codesOfGroup (bits : Symbol → Code) (group : List Symbol) : List Code := group.map fun s => (bits s).reverse

theorem codesOfGroup_appendBitTo_self (group : List Symbol) (bit : Bool) (bits : Symbol → Code) :
    codesOfGroup (appendBitTo group bit bits) group = (codesOfGroup bits group).map (bit :: ·) := by
  simp only [codesOfGroup, List.map_map]
  refine List.map_congr_left fun s hs => ?_
  simp [appendBitTo, hs]

theorem codesOfGroup_appendBitTo_disjoint {group other : List Symbol} (h : group.Disjoint other) (bit : Bool)
    (bits : Symbol → Code) : codesOfGroup (appendBitTo group bit bits) other = codesOfGroup bits other := by
  refine List.map_congr_left fun s hs => ?_
  have hs' : s ∉ group := fun hmem => h hmem hs
  simp [appendBitTo, hs']

/-- The loop's invariant (R234): the groups of the queue are a partition of the alphabet, and the codes that the symbols of a
group have so far are those of a full tree. -/
structure MergeInv (symbols : List Symbol) (bits : Symbol → Code) (queue : List WeightEntry) : Prop where
  partition : (queue.flatMap (·.group)).Perm symbols
  full : ∀ e ∈ queue, FullCode (codesOfGroup bits e.group)

/-- The singleton entries, each symbol without a bit (R232). -/
theorem mergeInv_initialQueue (t : FreqTable) : MergeInv (t.map (·.1)) (fun _ => []) (initialQueue t) where
  partition := by
    refine ((initialQueue_perm t).flatMap_right _).trans (.of_eq ?_)
    rw [List.flatMap_map, ← List.map_eq_flatMap]
  full e he := by
    obtain ⟨f, -, rfl⟩ := List.mem_map.mp ((initialQueue_perm t).mem_iff.mp he)
    exact .leaf

/-- One merge puts the two trees under one new root and leaves the other trees, whose symbols are others. -/
theorem MergeInv.merge {symbols : List Symbol} {bits : Symbol → Code} {one zero : WeightEntry} {rest : List WeightEntry}
    (hnodup : symbols.Nodup) (h : MergeInv symbols bits (one :: zero :: rest)) (weight : Nat) :
    MergeInv symbols (appendBitTo zero.group false (appendBitTo one.group true bits))
      (enqueue ⟨weight, one.group ++ zero.group⟩ rest) := by
  have hperm := enqueue_perm ⟨weight, one.group ++ zero.group⟩ rest
  have hall := h.partition.nodup_iff.mpr hnodup
  simp only [List.flatMap_cons] at hall
  obtain ⟨-, hzeroRest, hone⟩ := List.nodup_append'.mp hall
  obtain ⟨-, -, hzero⟩ := List.nodup_append'.mp hzeroRest
  obtain ⟨honeZero, honeRest⟩ := List.disjoint_append_right.mp hone
  refine ⟨((hperm.flatMap_right _).trans (.of_eq ?_)).trans h.partition, fun e he => ?_⟩
  · simp
  · obtain rfl | he := List.mem_cons.mp (hperm.mem_iff.mp he)
    · have hnode := (h.full one List.mem_cons_self).node (h.full zero (by simp))
      rw [← codesOfGroup_appendBitTo_self, ← codesOfGroup_appendBitTo_disjoint honeZero.symm false,
        ← codesOfGroup_appendBitTo_disjoint honeZero true bits, ← codesOfGroup_appendBitTo_self] at hnode
      simpa [codesOfGroup] using hnode
    · have hsub : e.group ⊆ rest.flatMap (·.group) := fun s hs => List.mem_flatMap.mpr ⟨e, he, hs⟩
      rw [codesOfGroup_appendBitTo_disjoint (List.disjoint_of_subset_right hsub hzero),
        codesOfGroup_appendBitTo_disjoint (List.disjoint_of_subset_right hsub honeRest)]
      exact h.full e (by simp [he])

/-- The loop ends with one tree that holds the whole alphabet (R235). -/
theorem mergeLoop_full {symbols : List Symbol} (hnodup : symbols.Nodup) (fuel : Nat) {queue : List WeightEntry}
    {bits : Symbol → Code} (h : MergeInv symbols bits queue) (hne : queue ≠ []) (hfuel : queue.length ≤ fuel + 1) :
    ∃ (bits' : Symbol → Code) (last : WeightEntry),
      mergeLoop fuel queue (symbols.map fun s => (s, bits s)) = symbols.map (fun s => (s, bits' s)) ∧
      MergeInv symbols bits' [last] := by
  induction fuel generalizing queue bits with
  | zero =>
    obtain ⟨last, rfl⟩ : ∃ last, queue = [last] :=
      List.length_eq_one_iff.mp (hfuel.antisymm (List.length_pos_iff.mpr hne))
    exact ⟨bits, last, rfl, h⟩
  | succ fuel ih =>
    match queue with
    | [] => exact absurd rfl hne
    | [last] => exact ⟨bits, last, rfl, h⟩
    | one :: zero :: rest =>
      have hlength := (enqueue_perm ⟨one.weight + zero.weight, one.group ++ zero.group⟩ rest).length_eq
      rw [List.length_cons] at hlength
      rw [mergeLoop, appendBit_map, appendBit_map]
      exact ih (h.merge hnodup _) (List.ne_nil_of_length_pos (by omega)) (by simp only [List.length_cons] at hfuel; omega)

/-! ### The CodeBuilder -/

theorem buildTable_of_two_le {t : FreqTable} (h : 2 ≤ t.length) : buildTable t =
    (mergeLoop t.length (initialQueue t) (t.map fun e => (e.1, []))).map (fun e => (e.1, e.2.reverse)) := by
  match t, h with
  | _ :: _ :: _, _ => rfl

/-- The table of two or more symbols lists them in order, with the codes of one full tree (R234, R235). -/
theorem buildTable_full {t : FreqTable} (hnodup : (t.map (·.1)).Nodup) (h : 2 ≤ t.length) :
    (buildTable t).map (·.1) = t.map (·.1) ∧ ∃ codes, codes.Perm ((buildTable t).map (·.2)) ∧ FullCode codes := by
  have hlength : (initialQueue t).length = t.length := by simpa using (initialQueue_perm t).length_eq
  obtain ⟨bits, last, hloop, hlast⟩ := mergeLoop_full hnodup t.length (mergeInv_initialQueue t)
    (List.ne_nil_of_length_pos (by omega)) (by omega)
  have htable : buildTable t = t.map fun e => (e.1, (bits e.1).reverse) := by
    simp only [List.map_map, Function.comp_def] at hloop
    rw [buildTable_of_two_le h, hloop, List.map_map]
    rfl
  have hperm : last.group.Perm (t.map (·.1)) := by simpa using hlast.partition
  refine ⟨?_, codesOfGroup bits last.group, ?_, hlast.full last List.mem_cons_self⟩
  · simp [htable]
  · simpa [htable, codesOfGroup, Function.comp_def] using hperm.map fun s => (bits s).reverse

theorem symbols_buildTable {stream : List Symbol} {table : FreqTable} (h : analyze stream = .ok table) :
    (buildTable table).map (·.1) = table.map (·.1) := by
  obtain ⟨sym, n, rfl⟩ | hsize := analyze_singleton_or_two_le h
  · rfl
  · exact (buildTable_full (nodup_symbols_analyze h) hsize).1

/-- The codes of two or more symbols are those of one full tree with as many leaves. -/
theorem exists_fullCode_perm_buildTable {stream : List Symbol} {table : FreqTable} (h : analyze stream = .ok table)
    (hsize : 2 ≤ table.length) :
    ∃ codes, codes.Perm ((buildTable table).map (·.2)) ∧ codes.length = table.length ∧ FullCode codes := by
  obtain ⟨hsymbols, codes, hperm, hfull⟩ := buildTable_full (nodup_symbols_analyze h) hsize
  refine ⟨codes, hperm, ?_, hfull⟩
  have hlength := congrArg List.length hsymbols
  rw [List.length_map, List.length_map] at hlength
  rw [hperm.length_eq, List.length_map, hlength]

/-- Settles O58: one symbol has no other; the codes of more are those of a full tree. -/
theorem builtTablesArePrefixFree : Obligations.BuiltTablesArePrefixFree := by
  intro stream table h e he f hf hne
  obtain ⟨sym, n, rfl⟩ | hsize := analyze_singleton_or_two_le h
  · rw [List.mem_singleton.mp he, List.mem_singleton.mp hf] at hne
    exact absurd rfl hne
  · obtain ⟨codes, hperm, -, hfull⟩ := exists_fullCode_perm_buildTable h hsize
    have hfree : (buildTable table).Pairwise fun e f => ¬ comparable e.2 f.2 :=
      List.pairwise_map.mp ((hperm.pairwise_iff fun hpq hqp => hpq hqp.symm).mp hfull.prefixFree)
    have : Std.Symm fun e f : Symbol × Code => ¬ comparable e.2 f.2 := ⟨fun _ _ hef hfe => hef hfe.symm⟩
    exact hfree.forall he hf (hne ∘ congrArg Prod.fst)

/-- Settles O59: one symbol gets the code 0; more are at depth 1 to k - 1 of a full tree of k leaves. -/
theorem builtCodesAreShort : Obligations.BuiltCodesAreShort := by
  intro stream table h
  refine ⟨fun e he => ?_, ?_, fun sym => ?_⟩
  · obtain ⟨sym, n, rfl⟩ | hsize := analyze_singleton_or_two_le h
    · obtain rfl := List.mem_singleton.mp he
      simp
    · obtain ⟨codes, hperm, hlength, hfull⟩ := exists_fullCode_perm_buildTable h hsize
      have hcode : e.2 ∈ codes := hperm.mem_iff.mpr (List.mem_map_of_mem he)
      have hpos := List.length_pos_iff.mpr (hfull.code_ne_nil (hlength ▸ hsize) _ hcode)
      have hlt := hlength ▸ hfull.code_length_lt _ hcode
      exact ⟨hpos, fun _ => Nat.le_sub_one_of_lt hlt⟩
  · rw [symbols_buildTable h]
    exact nodup_symbols_analyze h
  · rw [symbols_buildTable h, mem_symbols_analyze h]

/-- Settles O60: the sum is over the codes of a full tree of k leaves, in some order. -/
theorem builtTablesAreComplete : Obligations.BuiltTablesAreComplete := by
  intro stream table h hsize
  obtain ⟨codes, hperm, hlength, hfull⟩ := exists_fullCode_perm_buildTable h hsize
  have hsum := (hperm.map fun p => 2 ^ (table.length - p.length)).sum_eq
  rw [hfull.kraft_sum hlength.le, List.map_map] at hsum
  exact hsum.symm

end Sys2Proof.Machine

/-! The faults (60_exceptions.md): what a fault changes (R264), its repetition (R265), and which command raises what (R261, R262,
R274). -/

namespace Sys2Proof.Machine

/-! ### What a fault leaves -/

/-- The state a fault of command `i` reports over: DECODE has given up `DST`, TRIEBUILD all of the trie but the root (R264). -/
def faultBase (i : Instr) (s : State) : State :=
  { s with dst := if i = .decode then [] else s.dst, trie := if i = .triebuild then rootAlone else s.trie }

theorem exec_fault {i : Instr} {s t : State} (h : exec i s = .next t) (herr : t.err = true) :
    ∃ f, t = raise (faultBase i s) f := by
  rcases exec_cases i s t h with ⟨u, v, rfl, -⟩ | ⟨f, -, ht⟩
  · cases herr
  · exact ⟨f, ht⟩

/-- Settles O47: `faultBase` names the two exceptions, and `raise` writes the report only. -/
theorem faultsChangeOnlyTheReport : Obligations.FaultsChangeOnlyTheReport := by
  intro i s t h herr
  obtain ⟨f, rfl⟩ := exec_fault h herr
  rfl

/-- No command sees that another has faulted (R37). -/
theorem exec_raise (i : Instr) (s : State) (f : Raised) : exec i (raise s f) = exec i s :=
  noCommandReadsTheReport i s 0 f.info f.cause.code true

/-- DECODE does not read the `DST` it gives up, nor TRIEBUILD the trie (R204, R205). -/
theorem exec_faultBase (i : Instr) (s : State) : exec i (faultBase i s) = exec i s := by
  by_cases hdecode : i = .decode
  · subst hdecode
    rfl
  by_cases hbuild : i = .triebuild
  · subst hbuild
    rfl
  · rw [faultBase, if_neg hdecode, if_neg hbuild]

/-- Settles O48: the command reads neither the report nor what its own fault gave up. -/
theorem repeatedFaultIsTheSameFault : Obligations.RepeatedFaultIsTheSameFault := by
  intro i s t h herr
  obtain ⟨f, rfl⟩ := exec_fault h herr
  rw [exec_raise, exec_faultBase, h]

/-! ### What a part of a command can raise -/

/-- Every fault with which `r` can end satisfies `P`. -/
def RaisesOnly {α : Type} (P : Raised → Prop) (r : Except Raised α) : Prop := ∀ f, r = .error f → P f

section RaisesOnly

variable {α β : Type} {P : Raised → Prop}

theorem RaisesOnly.ok (a : α) : RaisesOnly P (.ok a) := fun _ h => nomatch h

theorem RaisesOnly.bind {x : Except Raised α} {k : α → Except Raised β} (hx : RaisesOnly P x)
    (hk : ∀ a, x = .ok a → RaisesOnly P (k a)) : RaisesOnly P (x >>= k) := by
  cases x with
  | ok a => exact hk a rfl
  | error g => intro f h; cases h; exact hx g rfl

theorem RaisesOnly.raiseIf {c : Prop} [Decidable c] {f : Raised} (hf : P f) : RaisesOnly P (raiseIf c f) := by
  intro g h
  obtain ⟨-, rfl⟩ := raiseIf_eq_error.mp h
  exact hf

/-- A command ends normally, or with a fault that its checks raise (R263). -/
theorem RaisesOnly.commit {base t : State} {r : Except Raised (State × Word)} (hr : RaisesOnly P r)
    (h : commit base r = .next t) : t.cause = 0 ∨ ∃ u f, P f ∧ t = raise u f := by
  rcases commit_cases h with ⟨u, v, -, rfl⟩ | ⟨f, hf, rfl⟩
  · exact .inl rfl
  · exact .inr ⟨base, f, hr f hf, rfl⟩

variable {s : State}

theorem symbolOperand_raises (h : P (.badOperand .a0)) : RaisesOnly P (symbolOperand s) := .bind (.raiseIf h) fun _ _ => .ok _

theorem codeOperand_raises (hsym : P (.badOperand .a0)) (hlen : P (.badOperand .a1)) (hbits : P (.badOperand .c)) :
    RaisesOnly P (codeOperand s) :=
  .bind (symbolOperand_raises hsym) fun _ _ => .bind (.raiseIf hlen) fun _ _ => .bind (.raiseIf hbits) fun _ _ => .ok _

theorem indexOperand_raises {length : Nat} (h : P (.indexOutOfRange s.a0)) : RaisesOnly P (indexOperand s length) :=
  .bind (.raiseIf h) fun _ _ => .ok _

theorem byteIndexOperand_raises (h : P (.indexOutOfRange s.a0)) : RaisesOnly P (byteIndexOperand s) :=
  .bind (.raiseIf h) fun _ _ => .ok _

theorem byteOperand_raises (h : P (.badOperand .a1)) : RaisesOnly P (byteOperand s) := .bind (.raiseIf h) fun _ _ => .ok _

theorem bufferLengthOperand_raises (hneg : P (.invalidLength s.a0)) (hbig : P (.capacity .bb)) :
    RaisesOnly P (bufferLengthOperand s) :=
  .bind (.raiseIf hneg) fun _ _ => .bind (.raiseIf hbig) fun _ _ => .ok _

theorem appendSource_raises {sym : Symbol} (h : P (.capacity .src)) : RaisesOnly P (appendSource s sym) :=
  .bind (.raiseIf h) fun _ _ => .ok _

theorem sizePass_raises {ct : CodeTable} {i total : Nat} {stream : List Symbol} (h : ∀ k, P (.unknownSymbol k)) :
    RaisesOnly P (sizePass ct i total stream) := by
  intro f hf
  obtain ⟨k, rfl⟩ := sizePass_error hf
  exact h k

theorem insertCode_raises {cap : Nat} {t : Trie} {sym : Symbol} {b : Code} (hconflict : P (.conflictingCode sym))
    (hfull : P (.capacity .trie)) : RaisesOnly P (insertCode cap t sym b) := by
  intro f hf
  rcases insertFrom_error hf with rfl | rfl
  · exact hconflict
  · exact hfull

theorem buildFrom_raises {cap : Nat} {ct : CodeTable} {l : List Nat} {t : Trie} {count : Nat}
    (hconflict : ∀ sym, P (.conflictingCode sym)) (hfull : P (.capacity .trie)) :
    RaisesOnly P (buildFrom cap ct l t count) := by
  intro f hf
  rcases buildFrom_error hf with ⟨sym, rfl⟩ | rfl
  · exact hconflict sym
  · exact hfull

theorem walkBits_raises {t : Trie} {cap : Nat} {bits : List Bool} {rp np start : Nat} {dst : List Symbol}
    (hinside : ∀ k, P (.malformedStream k)) (hchild : ∀ k, P (.missingChild k)) (hfull : P (.capacity .dst)) :
    RaisesOnly P (walkBits t cap bits rp np start dst) := by
  intro f hf
  rcases walkBits_error hf with ⟨k, rfl⟩ | ⟨k, rfl⟩ | rfl
  · exact hinside k
  · exact hchild k
  · exact hfull

end RaisesOnly

/-! ### Which command raises what -/

/-- The columns "Raised by" of R261 and the details of R262: that command `i` can raise this fault in state `s`. -/
@[simp] def CanRaise (i : Instr) (s : State) : Raised → Prop
  | .invalidLength operand => i = .bbcreate ∧ operand = s.a0
  | .indexOutOfRange operand =>
    i ∈ ([.bbget, .bbset, .bbclear, .bbrdbyte, .bbwrbyte, .srcread, .dstread] : List Instr) ∧ operand = s.a0
  | .unknownSymbol _ => i ∈ ([.encsize, .encode] : List Instr)
  | .conflictingCode sym => i = .trieadd ∧ sym = s.a0 ∨ i = .triebuild
  | .malformedStream _ => i = .decode
  | .illegalCommand _ => False
  | .capacity .bb => i ∈ ([.bbcreate, .encode] : List Instr)
  | .capacity .src => i ∈ ([.srcpush, .srcterm] : List Instr)
  | .capacity .dst => i = .decode
  | .capacity .trie => i ∈ ([.trieadd, .triebuild] : List Instr)
  | .missingChild _ => i = .decode
  | .badOperand .a0 => i ∈ ([.ctwrite, .ctread, .trieadd, .srcpush] : List Instr)
  | .badOperand .a1 => i ∈ ([.ctwrite, .trieadd, .bbwrbyte] : List Instr)
  | .badOperand .c => i ∈ ([.ctwrite, .trieadd] : List Instr)

/-- The symbol of a code operand is the one in `A0` (R93, R142). -/
theorem codeOperand_symbol {s : State} {sym : Symbol} {b : Code} (h : codeOperand s = .ok (sym, b)) : sym = s.a0 := by
  rw [codeOperand_eq] at h
  split_ifs at h
  cases h
  rfl

/-- Every fault of a command is one that R261 lists for it: each of its checks raises only such. -/
theorem exec_canRaise {i : Instr} {s t : State} (h : exec i s = .next t) :
    t.cause = 0 ∨ ∃ u f, CanRaise i s f ∧ t = raise u f := by
  cases i with
  | nop | reset | srcclear | trieclear =>
    cases h
    exact .inl rfl
  | ctwrite =>
    exact RaisesOnly.commit (.bind (codeOperand_raises (by simp) (by simp) (by simp)) fun _ _ => .ok _) h
  | ctread => exact RaisesOnly.commit (.bind (symbolOperand_raises (by simp)) fun _ _ => .ok _) h
  | bbcreate => exact RaisesOnly.commit (.bind (bufferLengthOperand_raises (by simp) (by simp)) fun _ _ => .ok _) h
  | bbget | bbset | bbclear | srcread | dstread =>
    exact RaisesOnly.commit (.bind (indexOperand_raises (by simp)) fun _ _ => .ok _) h
  | bbrdbyte => exact RaisesOnly.commit (.bind (byteIndexOperand_raises (by simp)) fun _ _ => .ok _) h
  | bbwrbyte =>
    exact RaisesOnly.commit (.bind (byteIndexOperand_raises (by simp)) fun _ _ =>
      .bind (byteOperand_raises (by simp)) fun _ _ => .ok _) h
  | srcpush =>
    exact RaisesOnly.commit (.bind (symbolOperand_raises (by simp)) fun _ _ =>
      .bind (appendSource_raises (by simp)) fun _ _ => .ok _) h
  | srcterm =>
    refine RaisesOnly.commit ?_ h
    split
    · exact .ok _
    · exact .bind (appendSource_raises (by simp)) fun _ _ => .ok _
  | encsize => exact RaisesOnly.commit (.bind (sizePass_raises fun _ => by simp) fun _ _ => .ok _) h
  | encode =>
    exact RaisesOnly.commit (.bind (sizePass_raises fun _ => by simp) fun _ _ =>
      .bind (.raiseIf (by simp)) fun _ _ => .ok _) h
  | trieadd =>
    exact RaisesOnly.commit (.bind (codeOperand_raises (by simp) (by simp) (by simp)) fun _ hoperand =>
      .bind (.raiseIf (by simp)) fun _ _ =>
        .bind (insertCode_raises (.inl ⟨rfl, codeOperand_symbol hoperand⟩) (by simp)) fun _ _ => .ok _) h
  | triebuild => exact RaisesOnly.commit (.bind (buildFrom_raises (fun _ => .inr rfl) (by simp)) fun _ _ => .ok _) h
  | decode => exact RaisesOnly.commit (.bind (walkBits_raises (fun _ => rfl) (fun _ => rfl) rfl) fun _ _ => .ok _) h

/-- Settles O51: each fault in `CanRaise` has the cause and the detail of its row. -/
theorem eachCauseComesOnlyFromItsCommands : Obligations.EachCauseComesOnlyFromItsCommands := by
  intro i s t h
  rcases exec_canRaise h with hok | ⟨u, f, hf, rfl⟩
  · exact .inl hok
  · right
    cases f with
    | capacity m => cases m <;> simp_all [Raised.cause, Cause.code, Raised.info, Store.number]
    | badOperand o => cases o <;> simp_all [Raised.cause, Cause.code, Raised.info, OperandReg.number]
    | _ => simp_all [Raised.cause, Cause.code, Raised.info]

/-! ### Empty inputs -/

/-- Settles O52: code 1 is not among the causes a command leaves; each loop ends at once on an empty input. -/
theorem emptyStreamErrorIsNeverRaised : Obligations.EmptyStreamErrorIsNeverRaised := by
  refine ⟨fun i s t h hcause => ?_, fun s hsrc => ⟨?_, ?_⟩, fun s hbb => ?_⟩
  · have hnamed := exec_cause_named h
    rw [hcause] at hnamed
    exact absurd hnamed (by decide)
  · rw [exec, execEncsize_eq, hsrc]
    rfl
  · have hcoded : AllCoded s.ct s.src := by rw [hsrc]; exact List.forall_mem_nil _
    rw [exec_encode_of_allCoded hcoded, hsrc, message_nil, List.length_nil, if_neg (Nat.not_lt_zero _)]
    rfl
  · rw [exec, execDecode_eq, hbb]
    rfl

end Sys2Proof.Machine

/-! Reset and hazards (70_reset_and_hazards.md): the two resets (R300), waiting (R301), and the end of every command (R312). -/

namespace Sys2Proof.Machine

/-- Settles O8: a legal configuration takes a transaction from the port, and there is none. -/
theorem stepWaitsWithNothingAtThePort : Obligations.StepWaitsWithNothingAtThePort := by
  intro s hv hport
  rw [step_of_valid hv, takeTransaction_nil hport]

theorem step_of_hardReset {s : State} {rest : List Transaction} (hv : s.cfg.Valid) (hport : s.port = .hardReset :: rest) :
    step s = .next (resetBlock { s with port := rest }) := by
  rw [step_of_valid hv, takeTransaction_cons hport, transact_hardReset]

/-- Settles O10: the hardware reset is `resetBlock`, and the RESET word runs the command that O14 is about. -/
theorem bothResetsGiveTheResetState : Obligations.BothResetsGiveTheResetState := by
  intro s rest hv
  obtain ⟨hdecode, hreset⟩ := resetCommandResetsEveryPieceOfState
  constructor
  · exact step_of_hardReset (s := { s with port := .hardReset :: rest }) hv rfl
  · have hstep := stepRunsTheDecodedCommand { s with port := .hostWrite 0x001 0x00000001 :: rest } rest _ .reset hv rfl hdecode
    exact hstep.trans (hreset _)

/-- Settles O44: every meaning is a `commit`. -/
theorem everyCommandCompletes : Obligations.EveryCommandCompletes := by
  intro i s
  cases i
  case nop | reset | srcclear | trieclear => exact ⟨_, rfl⟩
  all_goals exact commit_next _ _

end Sys2Proof.Machine
